-- ==== Sys2Proof/Word.lean ====
section
/-! DEFINITION. Word.lean: the widths of the CORE's values (00_scope R8, R9) and the type of a table register. -/

namespace Sys2Proof

/-- A 4-bit value (R8 `NIB_W`): an operand of `SUBN`, an entry of `S`. -/
abbrev Nibble := BitVec 4

/-- An 8-bit value (R8 `BYTE_W`): an operand of a transform, a slot of a payload (R9 `ENT_W`). -/
abbrev Byte := BitVec 8

/-- A bit position of a byte (R8 `POS_W`): an entry of `P`. -/
abbrev BitPos := BitVec 3

/-- The 128-bit operand of a command, or data of a response (R9 `ARG_W`). -/
abbrev Arg := BitVec 128

/-- A command word (R55). -/
abbrev CommandWord := BitVec 136

/-- A response word (R56). -/
abbrev ResponseWord := BitVec 136

/-- A table register over `w`-bit values: one `w`-bit entry for each of the `2 ^ w` indices (R20 to R23). -/
abbrev Table (w : Nat) := Vector (BitVec w) (2 ^ w)

end Sys2Proof
end

