-- ==== Sys2Proof/Syntax.lean ====
section
/-! DEFINITION. Syntax.lean: the 18 commands of 30_encoding R59, one constructor each, with the operands of R57 and R64. -/

namespace Sys2Proof

/-- A command. An operand of format N or B is a value of its own width; an operand of format T16 or T8 is the sequence
of its slots, slot 0 first (R57), of the length that `Instr.wf` asks for. -/
inductive Instr where
  /-- `SUBN n`: forward substitution of a nibble (R80). -/
  | subn (n : Nibble)
  /-- `ISUBN n`: inverse substitution of a nibble (R81). -/
  | isubn (n : Nibble)
  /-- `SUB b`: forward substitution of a byte (R82). -/
  | sub (b : Byte)
  /-- `ISUB b`: inverse substitution of a byte (R83). -/
  | isub (b : Byte)
  /-- `SETS v0,...,v15`: replace the substitution table (R85). -/
  | sets (vs : List Byte)
  /-- `RNDS`: replace the substitution table by a random permutation (R87). -/
  | rnds
  /-- `RSTS`: restore the default substitution table (R88). -/
  | rsts
  /-- `RDS`: read the substitution table (R89). -/
  | rds
  /-- `LDS v0,...,v15`: load the substitution table from a record (R86). -/
  | lds (vs : List Byte)
  /-- `PERM b`: forward bit permutation of a byte (R100). -/
  | perm (b : Byte)
  /-- `IPERM b`: inverse bit permutation of a byte (R101). -/
  | iperm (b : Byte)
  /-- `SETP q0,...,q7`: replace the permutation table (R103). -/
  | setp (qs : List Byte)
  /-- `RNDP`: replace the permutation table by a random permutation (R105). -/
  | rndp
  /-- `RSTP`: restore the default permutation table (R106). -/
  | rstp
  /-- `RDP`: read the permutation table (R107). -/
  | rdp
  /-- `LDP q0,...,q7`: load the permutation table from a record (R104). -/
  | ldp (qs : List Byte)
  /-- `ENC b`: substitute, then permute (R120). -/
  | enc (b : Byte)
  /-- `DEC b`: inverse-permute, then inverse-substitute (R121). -/
  | dec (b : Byte)
  deriving DecidableEq, Repr

end Sys2Proof
end

