-- ==== Sys2Proof/WellFormed.lean ====
section
/-! DEFINITION. WellFormed.lean: which commands a command word can carry (R57: the number of slots is fixed by the format). -/

namespace Sys2Proof

/-- A command is well formed when a table operand has exactly the slots of its format (R57 formats T16 and T8, D13);
every other operand has its width by its type. -/
def Instr.wf : Instr → Bool
  | .subn _ => true
  | .isubn _ => true
  | .sub _ => true
  | .isub _ => true
  | .sets vs => vs.length == 16
  | .rnds => true
  | .rsts => true
  | .rds => true
  | .lds vs => vs.length == 16
  | .perm _ => true
  | .iperm _ => true
  | .setp qs => qs.length == 8
  | .rndp => true
  | .rstp => true
  | .rdp => true
  | .ldp qs => qs.length == 8
  | .enc _ => true
  | .dec _ => true

end Sys2Proof
end

