-- ==== Sys2Proof/Decode.lean ====
section
/-! DEFINITION. Decode.lean: the command encoding of 30_encoding (R55, R57, R59 to R65): the decoder, then the encoder, the
assembler's checks and its aliases. -/

namespace Sys2Proof

/-- The five operand formats of R57. -/
inductive Format where
  | n | b | z | t16 | t8
  deriving DecidableEq, Repr

/-- The rows of R59's opcode map, by mnemonic. -/
inductive Command where
  | subn | isubn | sub | isub | sets | rnds | rsts | rds | lds
  | perm | iperm | setp | rndp | rstp | rdp | ldp
  | enc | dec
  deriving DecidableEq, Repr

/-- Why a command word is no command: an undefined opcode (R62), or a reserved operand bit set to 1 (R60). -/
inductive DecodeError where
  | undefinedOpcode (op : Byte)
  | reservedBitSet (c : Command)
  deriving DecidableEq, Repr

/-- `op = cw[135:128]` (R55). -/
def opOf (cw : CommandWord) : Byte := cw.extractLsb' 128 8

/-- `arg = cw[127:0]` (R55). -/
def argOf (cw : CommandWord) : Arg := cw.extractLsb' 0 128

/-- The rows of the opcode map, in R59's order. -/
def allCommands : List Command :=
  [.subn, .isubn, .sub, .isub, .sets, .rnds, .rsts, .rds, .lds,
   .perm, .iperm, .setp, .rndp, .rstp, .rdp, .ldp, .enc, .dec]

/-- The column `op` of R59. -/
def opcodeOf : Command → Byte
  | .subn => 0x10
  | .isubn => 0x11
  | .sub => 0x12
  | .isub => 0x13
  | .sets => 0x14
  | .rnds => 0x15
  | .rsts => 0x16
  | .rds => 0x17
  | .lds => 0x18
  | .perm => 0x22
  | .iperm => 0x23
  | .setp => 0x24
  | .rndp => 0x25
  | .rstp => 0x26
  | .rdp => 0x27
  | .ldp => 0x28
  | .enc => 0x30
  | .dec => 0x31

/-- The column `operand` of R59. -/
def formatOf : Command → Format
  | .subn | .isubn => .n
  | .sub | .isub | .perm | .iperm | .enc | .dec => .b
  | .rnds | .rsts | .rds | .rndp | .rstp | .rdp => .z
  | .sets | .lds => .t16
  | .setp | .ldp => .t8

/-- The reserved bits of an operand format (R57, column "reserved bits"), as a mask over `arg`. -/
def reservedMask : Format → Arg
  | .n => 0xFFFFFFFFFFFFFFFFFFFFFFFFFFFFFFF0
  | .b => 0xFFFFFFFFFFFFFFFFFFFFFFFFFFFFFF00
  | .z => 0xFFFFFFFFFFFFFFFFFFFFFFFFFFFFFFFF
  | .t16 => 0x00000000000000000000000000000000
  | .t8 => 0xFFFFFFFFFFFFFFFF0000000000000000

/-- Slot `i` of a payload, bits `[8*i+7 : 8*i]` (R43). -/
def slot (arg : Arg) (i : Nat) : Byte := arg.extractLsb' (8 * i) 8

/-- The first `k` slots of a payload, slot 0 first: `cand16` for `k = 16` (R84), `cand8` for `k = 8` (R102). -/
def slots (k : Nat) (arg : Arg) : List Byte := (List.range k).map (slot arg)

/-- The payload whose slots are the given bytes, slot 0 in the least significant byte (R43). -/
def packSlots : List Byte → Arg
  | [] => 0
  | v :: vs => (packSlots vs <<< 8) ||| v.setWidth 128

/-- The command of a row, with its operand taken from `arg` (R57). -/
def buildInstr (arg : Arg) : Command → Instr
  | .subn => .subn (arg.extractLsb' 0 4)
  | .isubn => .isubn (arg.extractLsb' 0 4)
  | .sub => .sub (arg.extractLsb' 0 8)
  | .isub => .isub (arg.extractLsb' 0 8)
  | .sets => .sets (slots 16 arg)
  | .rnds => .rnds
  | .rsts => .rsts
  | .rds => .rds
  | .lds => .lds (slots 16 arg)
  | .perm => .perm (arg.extractLsb' 0 8)
  | .iperm => .iperm (arg.extractLsb' 0 8)
  | .setp => .setp (slots 8 arg)
  | .rndp => .rndp
  | .rstp => .rstp
  | .rdp => .rdp
  | .ldp => .ldp (slots 8 arg)
  | .enc => .enc (arg.extractLsb' 0 8)
  | .dec => .dec (arg.extractLsb' 0 8)

/-- The row an opcode selects, if it is one of the 18 (R61, R62). -/
def commandOfOpcode (op : Byte) : Option Command := allCommands.find? fun c => opcodeOf c == op

/-- The decoder (R61): total on the 2^136 command words; it refuses an undefined opcode first and a reserved bit second
(R158 checks 1 and 2). -/
def decode (cw : CommandWord) : Except DecodeError Instr :=
  match commandOfOpcode (opOf cw) with
  | none => .error (.undefinedOpcode (opOf cw))
  | some c =>
    if argOf cw &&& reservedMask (formatOf c) = 0 then .ok (buildInstr (argOf cw) c)
    else .error (.reservedBitSet c)

/-- R59's `match` value of a row: the opcode over an operand of zeros. -/
def matchOf (c : Command) : CommandWord := opcodeOf c ++ (0 : Arg)

/-- R59's `mask` value of a row: the opcode field and the reserved bits of its operand format. -/
def maskOf (c : Command) : CommandWord := (0xFF : Byte) ++ reservedMask (formatOf c)

/-- The row of a command. -/
def commandOf : Instr → Command
  | .subn _ => .subn
  | .isubn _ => .isubn
  | .sub _ => .sub
  | .isub _ => .isub
  | .sets _ => .sets
  | .rnds => .rnds
  | .rsts => .rsts
  | .rds => .rds
  | .lds _ => .lds
  | .perm _ => .perm
  | .iperm _ => .iperm
  | .setp _ => .setp
  | .rndp => .rndp
  | .rstp => .rstp
  | .rdp => .rdp
  | .ldp _ => .ldp
  | .enc _ => .enc
  | .dec _ => .dec

/-- The operand field of a command (R57, R64): `n` in `arg[3:0]`, `b` in `arg[7:0]`, slot `i` in `arg[8*i+7:8*i]`, zero in
every reserved bit. -/
def operandOf : Instr → Arg
  | .subn n => n.setWidth 128
  | .isubn n => n.setWidth 128
  | .sub b => b.setWidth 128
  | .isub b => b.setWidth 128
  | .sets vs => packSlots vs
  | .rnds => 0
  | .rsts => 0
  | .rds => 0
  | .lds vs => packSlots vs
  | .perm b => b.setWidth 128
  | .iperm b => b.setWidth 128
  | .setp qs => packSlots qs
  | .rndp => 0
  | .rstp => 0
  | .rdp => 0
  | .ldp qs => packSlots qs
  | .enc b => b.setWidth 128
  | .dec b => b.setWidth 128

/-- The encoder: the command word of a well-formed command (R55, R59, R64). -/
def encode (i : Instr) : CommandWord := opcodeOf (commandOf i) ++ operandOf i

/-- Whether the assembler accepts the literals of a command of this format (R64): each fits its slot and the list has the
format's length. -/
def literalsFit : Format → List Nat → Bool
  | .n, lits => lits.length == 1 && lits.all (· < 16)
  | .b, lits => lits.length == 1 && lits.all (· < 256)
  | .z, lits => lits.length == 0
  | .t16, lits => lits.length == 16 && lits.all (· < 256)
  | .t8, lits => lits.length == 8 && lits.all (· < 256)

/-- The assembler (R64): the command word of a mnemonic with its literals, or nothing where it refuses them. A single
literal and a list are both slots from slot 0 upwards. -/
def assemble (c : Command) (lits : List Nat) : Option CommandWord :=
  if literalsFit (formatOf c) lits then some (opcodeOf c ++ packSlots (lits.map (BitVec.ofNat 8))) else none

/-- The assembler aliases of R65: the operations of the document's engine that forward to a table or to the cascade. -/
inductive Alias where
  | subOnly (b : Byte) | isubOnly (b : Byte) | permOnly (b : Byte) | ipermOnly (b : Byte)
  | rstSub | rstPerm | encrypt (b : Byte) | decrypt (b : Byte)
  deriving DecidableEq, Repr

/-- The one command an alias stands for (R65, R125, R126). -/
def expandAlias : Alias → Instr
  | .subOnly b => .sub b
  | .isubOnly b => .isub b
  | .permOnly b => .perm b
  | .ipermOnly b => .iperm b
  | .rstSub => .rsts
  | .rstPerm => .rstp
  | .encrypt b => .enc b
  | .decrypt b => .dec b

/-- The command word whose low `nbits` bits are those of `w` and whose other bits are 0. A command is one word, so the
table's bit numbering is the word's own (R55, log entry 7). -/
def tableWord (nbits w : Nat) : CommandWord := BitVec.ofNat 136 (w % 2 ^ nbits)

/-- What the decoder reads from the command word `tableWord nbits w`. -/
def decodeTableWord (nbits w : Nat) : Option Instr :=
  match decode (tableWord nbits w) with
  | .ok i => some i
  | .error _ => none

end Sys2Proof
end

