-- ==== Sys2Proof/Machine/Flags.lean ====
section
/-! DEFINITION. Machine/Flags.lean: the CORE has no flags (10_state R30); the outcome of a command is the status code and the data of
its response word (30_encoding R56, 60_exceptions R156), which stand here. -/

namespace Sys2Proof.Machine

/-- The named status codes of R156. -/
inductive Status where
  /-- Every command that does not fail. -/
  | ok
  /-- `SETS`, `SETP` with an invalid candidate (R152). -/
  | invalidTable
  /-- `LDS`, `LDP` with an invalid candidate (R153). -/
  | format
  /-- Never by the CORE; reserved for the host (R154). -/
  | notFound
  /-- A word that is no command (R155). -/
  | illegalCommand
  deriving DecidableEq, Repr

/-- The column `code` of R156. -/
def statusCode : Status → Byte
  | .ok => 0x00
  | .invalidTable => 0x01
  | .format => 0x02
  | .notFound => 0x03
  | .illegalCommand => 0x04

/-- The response word with status `st` in bits 135..128 and data `dat` in bits 127..0 (R56). -/
def responseWord (st : Status) (dat : Arg) : ResponseWord := statusCode st ++ dat

/-- `st = rw[135:128]` (R56). -/
def statusField (rw : ResponseWord) : Byte := rw.extractLsb' 128 8

/-- `dat = rw[127:0]` (R56). -/
def dataField (rw : ResponseWord) : Arg := rw.extractLsb' 0 128

end Sys2Proof.Machine
end

