-- ==== Sys2Proof/Machine/Operands.lean ====
section
/-! DEFINITION. Machine/Operands.lean: how the commands read their operands and tables: lookup, permutation predicates, inverse,
candidate tables, the nibble split, the bit scatter, the payload of a read-out (00_scope R12 to R15, 20_memory R41 to R43). -/

namespace Sys2Proof.Machine

/-- `t[x]` (R14): an index is always in range (R41). -/
def lookup {w : Nat} (t : Table w) (x : BitVec w) : BitVec w := t[x.toNat]'x.isLt

/-- `perm_n` of a sequence of numbers (R15): length `n`, every member below `n`, no two equal. A command word
always meets the length clause (D13, log entry 14). -/
abbrev PermSeq (n : Nat) (vs : List Byte) : Prop := vs.length = n ∧ (∀ v ∈ vs, v.toNat < n) ∧ vs.Nodup

/-- `perm_n` of a table register (R24, R26): its length and range hold by its type, so no two entries are equal. -/
abbrev IsPerm {w : Nat} (t : Table w) : Prop := t.toList.Nodup

/-- `inv_n` (R15), by index lookup: entry `y` is the index at which `t` holds `y`. R15 defines it where `t` is a permutation,
and only there does a command use it (log entry 11). -/
def inverseTable {w : Nat} (t : Table w) : Table w :=
  Vector.ofFn fun y => BitVec.ofNat w (t.toList.idxOf (BitVec.ofFin y))

/-- The table a candidate holds: entry `i` is the low `w` bits of slot `i` (R85, R103). -/
def tableOfSlots (w : Nat) (vs : List Byte) : Table w :=
  Vector.ofFn fun i => (vs.getD i.val 0).setWidth w

/-- The table a draw gives (R87, R105). -/
def tableOfDraw {w : Nat} (pi : Equiv.Perm (BitVec w)) : Table w :=
  Vector.ofFn fun i => pi (BitVec.ofFin i)

/-- `b[7:4]` (R42). -/
def highNibble (b : Byte) : Nibble := b.extractLsb' 4 4

/-- `b[3:0]` (R42). -/
def lowNibble (b : Byte) : Nibble := b.extractLsb' 0 4

/-- Both nibbles of a byte through one table, the image of the high nibble on top (R82, R83). -/
def substituteByte (t : Table 4) (b : Byte) : Byte := lookup t (highNibble b) ++ lookup t (lowNibble b)

/-- The contribution of source bit `i` to a scattered byte: bit `t[i]`, if bit `i` of `b` is set (R100). -/
def scatterBit (t : Table 3) (b : Byte) (r : Byte) (i : Nat) : Byte :=
  if b.getLsbD i then r ||| (1#8 <<< (lookup t (BitVec.ofNat 3 i)).toNat) else r

/-- The bits of a byte redistributed through a table of destinations (R100, R101). -/
def scatterByte (t : Table 3) (b : Byte) : Byte := (List.range 8).foldl (scatterBit t b) 0

/-- A whole table as response data: slot `i` is entry `i`, zero-extended (R43, R58). -/
def tablePayload {w : Nat} (t : Table w) : Arg := packSlots (t.toList.map (BitVec.setWidth 8))

end Sys2Proof.Machine
end

