-- ==== Sys2Proof/Config.lean ====
section
/-! DEFINITION. Config.lean: the fixed parameters of the CORE (R8) and its free values (R9 `RNG`). -/

namespace Sys2Proof.Config

/-- `S_DEFAULT` (R8, R32). -/
def sDefault : Table 4 := #v[1, 0, 3, 2, 5, 4, 7, 6, 9, 8, 11, 10, 13, 12, 15, 14]

/-- The inverse of `S_DEFAULT` as R34 lists it. -/
def siDefault : Table 4 := #v[1, 0, 3, 2, 5, 4, 7, 6, 9, 8, 11, 10, 13, 12, 15, 14]

/-- `P_DEFAULT` (R8, R33). -/
def pDefault : Table 3 := #v[1, 5, 2, 0, 3, 7, 4, 6]

/-- The inverse of `P_DEFAULT` as R34 lists it. -/
def piDefault : Table 3 := #v[3, 0, 2, 4, 6, 1, 7, 5]

/-- FREE VALUE, DESIGN CHOICE (log entry 4): the draw that `RNDS` takes when `k` draws came before it, any permutation
of the nibbles (R87, U1). It has no body, so that nothing can be proved of it beyond its being a permutation. -/
opaque draw16 : Nat → Equiv.Perm Nibble

/-- FREE VALUE, DESIGN CHOICE (log entry 4): the draw that `RNDP` takes when `k` draws came before it, any permutation
of the bit positions (R105, U1), unrelated to the draws of `RNDS`. -/
opaque draw8 : Nat → Equiv.Perm BitPos

end Sys2Proof.Config
end

