-- ==== Sys2Proof/Machine/State.lean ====
section
/-! DEFINITION. Machine/State.lean: the state of the CORE (10_state R20 to R36) beside the host's moves and the responses it got
(70_reset R185, R186), the reasons a step stops, and the state after reset (R176). -/

namespace Sys2Proof.Machine

/-- The host's two moves (70_reset R186). -/
inductive HostMove where
  /-- The host hands over a command word, any of the 2^136 (R186). -/
  | command (cw : CommandWord)
  /-- The host asserts reset (R175), with the command that was in progress then, if one was: it is abandoned (R177). -/
  | reset (inProgress : Option CommandWord)
  deriving DecidableEq, Repr

/-- The CORE's four table registers, and the model's record of the host interface. Plain data. -/
structure State where
  /-- The substitution table: `S[x]` is the image of nibble `x` (R20). -/
  S : Table 4
  /-- The inverse substitution table (R21). -/
  SI : Table 4
  /-- The permutation table: `P[i]` is the destination of source bit `i` (R22). -/
  P : Table 3
  /-- The inverse permutation table (R23). -/
  PI : Table 3
  /-- The host's moves that lie ahead, the next one first; the MODEL's field, not a register of the CORE (log entry 1). -/
  moves : List HostMove
  /-- The responses returned so far, oldest first (R185); the MODEL's field, no command reads it (log entry 1). -/
  responses : List ResponseWord
  /-- How many draws `RNDS` and `RNDP` have taken; the MODEL's field, which only selects the free value (log entry 4). -/
  draws : Nat
  deriving DecidableEq, Repr

/-- The faults of the CORE: none. R150: the CORE has no traps; R160: no status code, no fault bit and no halt; R183: it cannot
hang and cannot be stuck. The type is empty, so no step can answer a fault (log entry 10). -/
inductive Fault where
  deriving DecidableEq, Repr

/-- The reasons the model gives a command no behaviour. -/
inductive Refusal where
  /-- Raised by an arm of `exec` whose command has no meaning in the model yet. Safe: nothing is claimed of it. -/
  | notModelled (mnemonic : String)
  /-- Raised by a transform command in a state that breaks a table invariant: 93_implementation_defined U3 says `refuse`.
  No step from a state with the invariants reaches such a state. Safe: the model stops. -/
  | brokenTables
  deriving DecidableEq, Repr

/-- The state right after hardware reset (R176, with the values of R32 to R34). The three fields of the model's own are
DESIGN CHOICES: no move has been sent, no response returned, no draw taken (log entries 1, 2 and 4). -/
def State.reset : State where
  S := Config.sDefault
  SI := Config.siDefault
  P := Config.pDefault
  PI := Config.piDefault
  moves := []
  responses := []
  draws := 0

end Sys2Proof.Machine
end

