-- ==== Sys2Proof/Machine/Ops.lean ====
section
/-! DEFINITION. Machine/Ops.lean: the named operations over the state: taking the host's next move, responding, failing a command,
reading through the tables, writing a table with its inverse, hardware reset. -/

namespace Sys2Proof.Machine

/-- What a step of the CORE answers. -/
abbrev Outcome := Host.Outcome State Fault Refusal

/-- INV_S, INV_SI, INV_P and INV_PI together (R24 to R27). -/
abbrev TablesInv (s : State) : Prop :=
  IsPerm s.S ∧ s.SI = inverseTable s.S ∧ IsPerm s.P ∧ s.PI = inverseTable s.P

/-- `respond(st, dat)` (R16): the response is returned after all earlier ones (R48 (c)). -/
def respond (st : Status) (dat : Arg) (s : State) : State :=
  { s with responses := s.responses ++ [responseWord st dat] }

/-- A command that ends with status OK and the given data (R58). -/
def succeed (dat : Arg) (s : State) : Outcome := .next (respond .ok dat s)

/-- `raise E` (R16, R150, R157): no state write, a response with the error's code and data zero (R166). This is all the CORE has
for taking an exception; the return is the next command (R162). -/
def raiseError (e : Status) (s : State) : Outcome := .next (respond e 0 s)

/-- A transform command that answers `dat`, computed from the tables. In a state that breaks a table invariant the spec gives
it no meaning and asks for a refusal (U3, log entry 6). -/
def transform (dat : Arg) (s : State) : Outcome :=
  if TablesInv s then succeed dat s else .refused .brokenTables

/-- `S <- t; SI <- inv_16(t)` in one step (R25, R46). -/
def writeS (t : Table 4) (s : State) : State := { s with S := t, SI := inverseTable t }

/-- `P <- t; PI <- inv_8(t)` in one step (R27, R46). -/
def writeP (t : Table 3) (s : State) : State := { s with P := t, PI := inverseTable t }

/-- Replace the substitution table by a candidate, or fail with `e` and write nothing where it is no permutation (R85, R86). -/
def loadS (e : Status) (vs : List Byte) (s : State) : Outcome :=
  if PermSeq 16 vs then succeed 0 (writeS (tableOfSlots 4 vs) s) else raiseError e s

/-- Replace the permutation table by a candidate, or fail with `e` and write nothing where it is no permutation (R103, R104). -/
def loadP (e : Status) (qs : List Byte) (s : State) : Outcome :=
  if PermSeq 8 qs then succeed 0 (writeP (tableOfSlots 3 qs) s) else raiseError e s

/-- Count one draw as taken: the next randomize command takes another (R87, log entry 4). -/
def takeDraw (s : State) : State := { s with draws := s.draws + 1 }

/-- Replace the substitution table by the drawn permutation `pi` (R87). -/
def randomizeS (pi : Equiv.Perm Nibble) (s : State) : Outcome :=
  succeed 0 (writeS (tableOfDraw pi) (takeDraw s))

/-- Replace the permutation table by the drawn permutation `pi` (R105). -/
def randomizeP (pi : Equiv.Perm BitPos) (s : State) : Outcome :=
  succeed 0 (writeP (tableOfDraw pi) (takeDraw s))

/-- `S <- S_DEFAULT; SI <- S_DEFAULT` (R88). -/
def restoreS (s : State) : State := { s with S := Config.sDefault, SI := Config.siDefault }

/-- `P <- P_DEFAULT; PI <- [3,0,2,4,6,1,7,5]` (R106). -/
def restoreP (s : State) : State := { s with P := Config.pDefault, PI := Config.piDefault }

/-- Hardware reset (R176): both tables and their inverses get their defaults, and there is no response. What the host has
received and will send stays the host's (log entry 3). -/
def hardReset (s : State) : State := restoreP (restoreS s)

/-- The host's next move and the state in which that move has been taken, if the host has one (R10, R48). -/
def takeMove (s : State) : Option (HostMove × State) :=
  match s.moves with
  | [] => none
  | m :: rest => some (m, { s with moves := rest })

/-- The state in which the host sends `m` before all its other moves. -/
def sendFirst (m : HostMove) (s : State) : State := { s with moves := m :: s.moves }

end Sys2Proof.Machine
end

