-- ==== Sys2Proof/Machine/Cascade.lean ====
section
/-! DEFINITION. Machine/Cascade.lean: the byte_sp_cascade commands (42_cascade R120, R121), both stages over one state (R123). -/

namespace Sys2Proof.Machine

/-- `ENC b`: substitute, then permute (R120). -/
def execEnc (b : Byte) (s : State) : Outcome :=
  transform ((scatterByte s.P (substituteByte s.S b)).setWidth 128) s

/-- `DEC b`: inverse-permute, then inverse-substitute (R121). -/
def execDec (b : Byte) (s : State) : Outcome :=
  transform ((substituteByte s.SI (scatterByte s.PI b)).setWidth 128) s

end Sys2Proof.Machine
end

