-- ==== Sys2Proof/Machine/Permutation.lean ====
section
/-! DEFINITION. Machine/Permutation.lean: the bit_permutation_lookup commands (41_permutation R100 to R107). -/

namespace Sys2Proof.Machine

/-- `PERM b` (R100). -/
def execPerm (b : Byte) (s : State) : Outcome := transform ((scatterByte s.P b).setWidth 128) s

/-- `IPERM b` (R101). -/
def execIperm (b : Byte) (s : State) : Outcome := transform ((scatterByte s.PI b).setWidth 128) s

/-- `SETP q0,...,q7` (R103): an invalid candidate raises InvalidTable. -/
def execSetp (qs : List Byte) (s : State) : Outcome := loadP .invalidTable qs s

/-- `RNDP` (R105), with the draw that is next. -/
def execRndp (s : State) : Outcome := randomizeP (Config.draw8 s.draws) s

/-- `RSTP` (R106). -/
def execRstp (s : State) : Outcome := succeed 0 (restoreP s)

/-- `RDP` (R107): the forward table only. -/
def execRdp (s : State) : Outcome := succeed (tablePayload s.P) s

/-- `LDP q0,...,q7` (R104): an invalid candidate raises Format. -/
def execLdp (qs : List Byte) (s : State) : Outcome := loadP .format qs s

end Sys2Proof.Machine
end

