-- ==== Sys2Proof/Machine/Substitution.lean ====
section
/-! DEFINITION. Machine/Substitution.lean: the nibble_substitution_lookup commands (40_substitution R80 to R89). -/

namespace Sys2Proof.Machine

/-- `SUBN n` (R80). -/
def execSubn (n : Nibble) (s : State) : Outcome := transform ((lookup s.S n).setWidth 128) s

/-- `ISUBN n` (R81). -/
def execIsubn (n : Nibble) (s : State) : Outcome := transform ((lookup s.SI n).setWidth 128) s

/-- `SUB b` (R82). -/
def execSub (b : Byte) (s : State) : Outcome := transform ((substituteByte s.S b).setWidth 128) s

/-- `ISUB b` (R83). -/
def execIsub (b : Byte) (s : State) : Outcome := transform ((substituteByte s.SI b).setWidth 128) s

/-- `SETS v0,...,v15` (R85): an invalid candidate raises InvalidTable. -/
def execSets (vs : List Byte) (s : State) : Outcome := loadS .invalidTable vs s

/-- `RNDS` (R87), with the draw that is next. -/
def execRnds (s : State) : Outcome := randomizeS (Config.draw16 s.draws) s

/-- `RSTS` (R88). -/
def execRsts (s : State) : Outcome := succeed 0 (restoreS s)

/-- `RDS` (R89): the forward table only. -/
def execRds (s : State) : Outcome := succeed (tablePayload s.S) s

/-- `LDS v0,...,v15` (R86): an invalid candidate raises Format. -/
def execLds (vs : List Byte) (s : State) : Outcome := loadS .format vs s

end Sys2Proof.Machine
end

