-- ==== Sys2Proof/Machine/Dispatch.lean ====
section
/-! DEFINITION. Machine/Dispatch.lean: one arm per command (30_encoding R61, "otherwise execute the command's own rule"). -/

namespace Sys2Proof.Machine

def exec (i : Instr) (s : State) : Host.Outcome State Fault Refusal :=
  match i with
  | .subn n => Sys2Proof.Machine.execSubn n s
  | .isubn n => Sys2Proof.Machine.execIsubn n s
  | .sub b => Sys2Proof.Machine.execSub b s
  | .isub b => Sys2Proof.Machine.execIsub b s
  | .sets vs => Sys2Proof.Machine.execSets vs s
  | .rnds => Sys2Proof.Machine.execRnds s
  | .rsts => Sys2Proof.Machine.execRsts s
  | .rds => Sys2Proof.Machine.execRds s
  | .lds vs => Sys2Proof.Machine.execLds vs s
  | .perm b => Sys2Proof.Machine.execPerm b s
  | .iperm b => Sys2Proof.Machine.execIperm b s
  | .setp qs => Sys2Proof.Machine.execSetp qs s
  | .rndp => Sys2Proof.Machine.execRndp s
  | .rstp => Sys2Proof.Machine.execRstp s
  | .rdp => Sys2Proof.Machine.execRdp s
  | .ldp qs => Sys2Proof.Machine.execLdp qs s
  | .enc b => Sys2Proof.Machine.execEnc b s
  | .dec b => Sys2Proof.Machine.execDec b s

end Sys2Proof.Machine
end

