-- ==== Sys2Proof/Machine/Step.lean ====
section
/-! DEFINITION. Machine/Step.lean: the step function (30_encoding R61) over the host's moves (70_reset R186). -/

namespace Sys2Proof.Machine

/-- One command word (R61): a word that is no command raises IllegalCommand (R60, R62), any other runs its own rule. -/
def runWord (cw : CommandWord) (s : State) : Outcome :=
  match decode cw with
  | .ok i => exec i s
  | .error _ => raiseError .illegalCommand s

/-- One move of the host (R186). A command that reset cuts short is abandoned: no response, no effect (R177). -/
def performMove (m : HostMove) (s : State) : Outcome :=
  match m with
  | .command cw => runWord cw s
  | .reset _ => .next (hardReset s)

/-- One step: the host's next move is taken and performed; with no move ahead the CORE does nothing (R10, log entry 2). -/
def step (s : State) : Host.Outcome State Fault Refusal :=
  match takeMove s with
  | none => .next s
  | some (m, s') => performMove m s'

/-- The host sends the table word as its next command (R11: commands are handed over, none is fetched; log entry 2). -/
def State.withFetchWord (s : State) (nbits w : Nat) : State := sendFirst (.command (tableWord nbits w)) s

end Sys2Proof.Machine
end

