-- ==== Sys2Proof/Machine/Shell.lean ====
section
/-! DEFINITION. Machine/Shell.lean: what 43_host_persistence settles about HOST software that saves and loads the tables (R135 to R141).
None of it is state or behaviour of the CORE and no step uses it; it starts from a record already parsed (log entry 13). -/

namespace Sys2Proof.Machine

/-- The content of a persisted file once its text is parsed: the mapping under `constants` (R135), the list under
`permutation` (R136), or anything else. A value that is no integer is `none`. -/
inductive Record where
  | constants (entries : List (List Char × Option Int))
  | permutation (elements : List (Option Int))
  | other
  deriving DecidableEq, Repr

/-- The required extension of a path, in the reference (R137, U10). -/
def requiredExtension : List Char := ['.', 'j', 's', 'o', 'n']

/-- Whether a path ends in the required extension (R137). -/
def pathAccepted (path : List Char) : Bool := requiredExtension.isSuffixOf path

/-- The key of entry `i` of a substitution record: the decimal string of `i` (R135). -/
def recordKey (i : Nat) : List Char := Nat.toDigits 10 i

/-- The slot a value of a record fills, if it is an integer in 0..255 (R139). DESIGN CHOICE (log entry 15): R139 says that values
16..255 (for `S`) or 8..255 (for `P`) may be left to the CORE to reject; this host always leaves them to it. -/
def slotOfValue : Option Int → Option Byte
  | none => none
  | some v => if 0 ≤ v ∧ v ≤ 255 then some (BitVec.ofInt 8 v) else none

/-- The sixteen slots of a substitution record: exactly the keys 0 to 15, each with a value that fits a slot (R139), too large for a
table or not (log entry 15). -/
def slotsOfConstants (entries : List (List Char × Option Int)) : Option (List Byte) :=
  if entries.length = 16 then (List.range 16).mapM fun i => (entries.lookup (recordKey i)).bind slotOfValue
  else none

/-- The eight slots of a permutation record (R139), a value too large for a table included (log entry 15). -/
def slotsOfPermutation (elements : List (Option Int)) : Option (List Byte) :=
  if elements.length = 8 then elements.mapM slotOfValue else none

/-- What the host does to load the substitution table from a path, `file` being what is stored there: the command it sends, or
the error it reports itself while sending nothing (R137, R139). The CORE's status is then the result of the load. -/
def loadCommandS (path : List Char) (file : Option Record) : Except Status CommandWord :=
  if pathAccepted path then
    match file with
    | none => .error .notFound
    | some (.constants entries) =>
      match slotsOfConstants entries with
      | some vs => .ok (encode (.lds vs))
      | none => .error .format
    | some (.permutation _) => .error .format
    | some .other => .error .format
  else .error .format

/-- The same for the permutation table (R137, R139). -/
def loadCommandP (path : List Char) (file : Option Record) : Except Status CommandWord :=
  if pathAccepted path then
    match file with
    | none => .error .notFound
    | some (.permutation elements) =>
      match slotsOfPermutation elements with
      | some qs => .ok (encode (.ldp qs))
      | none => .error .format
    | some (.constants _) => .error .format
    | some .other => .error .format
  else .error .format

/-- The command a host sends to save the substitution table, or the failure it reports while sending nothing (R137, R138). -/
def saveCommandS (path : List Char) : Except Status CommandWord :=
  if pathAccepted path then .ok (encode .rds) else .error .format

/-- The command a host sends to save the permutation table (R137, R138). -/
def saveCommandP (path : List Char) : Except Status CommandWord :=
  if pathAccepted path then .ok (encode .rdp) else .error .format

/-- The record the host writes from the response to `RDS` (R135, R138). -/
def savedRecordS (rw : ResponseWord) : Record :=
  .constants ((List.range 16).map fun i => (recordKey i, some (Int.ofNat (slot (dataField rw) i).toNat)))

/-- The record the host writes from the response to `RDP` (R136, R138). -/
def savedRecordP (rw : ResponseWord) : Record :=
  .permutation ((List.range 8).map fun i => some (Int.ofNat (slot (dataField rw) i).toNat))

end Sys2Proof.Machine
end

