-- ==== Sys2Proof/Safety.lean ====
section
/-! DEFINITION. Safety.lean: what counts as a safe run of the CORE (10_state R24 to R27, 70_reset R186), in the terms the claims use. -/

namespace Sys2Proof.Machine

/-- The state in which one more response, with status `st` and data `dat`, has been returned and nothing else has changed. -/
abbrev answered (st : Byte) (dat : Arg) (s : State) : State :=
  { s with responses := s.responses ++ [(st ++ dat : ResponseWord)] }

/-- A response the CORE may give (R156, R166, R186): one of the four statuses it can return, and data zero on an error. -/
abbrev LawfulResponse (rw : ResponseWord) : Prop :=
  (statusField rw = 0x00 ∨ statusField rw = 0x01 ∨ statusField rw = 0x02 ∨ statusField rw = 0x04) ∧
    (statusField rw ≠ 0x00 → dataField rw = 0)

/-- The two states hold the same table registers. -/
abbrev SameTables (s t : State) : Prop := t.S = s.S ∧ t.SI = s.SI ∧ t.P = s.P ∧ t.PI = s.PI

/-- A command that reads a table and writes nothing: a transform or a read-out (R47). -/
def readsOnly : Instr → Bool
  | .subn _ | .isubn _ | .sub _ | .isub _ | .rds | .perm _ | .iperm _ | .rdp | .enc _ | .dec _ => true
  | .sets _ | .rnds | .rsts | .lds _ | .setp _ | .rndp | .rstp | .ldp _ => false

/-- A transform command (R47): one that looks operands up in the tables. -/
def isTransform : Instr → Bool
  | .subn _ | .isubn _ | .sub _ | .isub _ | .perm _ | .iperm _ | .enc _ | .dec _ => true
  | .sets _ | .rnds | .rsts | .rds | .lds _ | .setp _ | .rndp | .rstp | .rdp | .ldp _ => false

/-- The substitution family (R59: opcodes 0x10 to 0x18). -/
def inSubstitutionFamily : Instr → Bool
  | .subn _ | .isubn _ | .sub _ | .isub _ | .sets _ | .rnds | .rsts | .rds | .lds _ => true
  | .perm _ | .iperm _ | .setp _ | .rndp | .rstp | .rdp | .ldp _ | .enc _ | .dec _ => false

/-- The permutation family (R59: opcodes 0x22 to 0x28). -/
def inPermutationFamily : Instr → Bool
  | .perm _ | .iperm _ | .setp _ | .rndp | .rstp | .rdp | .ldp _ => true
  | .subn _ | .isubn _ | .sub _ | .isub _ | .sets _ | .rnds | .rsts | .rds | .lds _ | .enc _ | .dec _ => false

/-- A safe step: it answers a state in which the invariants hold; where a command was taken, exactly one lawful response more
has been returned, and where reset or nothing was taken, none. -/
def SafeStep (s : State) : Prop :=
  ∃ t, step s = .next t ∧ TablesInv t ∧
    match s.moves with
    | [] => t = s
    | .command _ :: rest => t.moves = rest ∧ ∃ rw, t.responses = s.responses ++ [rw] ∧ LawfulResponse rw
    | .reset _ :: rest => t.moves = rest ∧ t.responses = s.responses

end Sys2Proof.Machine
end

