-- ==== Sys2Proof/Certificates/Slice0/Obligations.lean ====
section
/-! DEFINITION. Certificates/Slice0/Obligations.lean: the statements for the provers. `answered st dat s` is `s` with one more response,
of status `st` and data `dat`, and every other field as it was, so an equation `exec i s = .next (answered st dat s)` says the
result and the whole frame. The fields `moves`, `responses` and `draws` are the model's own (log entries 1 and 4). -/

open Sys2Proof Sys2Proof.Machine

/-! ## Reset and the invariants -/

/-- R32, R33, R34: the four tables after reset. -/
def Obligations.ResetLeavesDefaultTables : Prop :=
  State.reset.S = #v[1, 0, 3, 2, 5, 4, 7, 6, 9, 8, 11, 10, 13, 12, 15, 14] ∧
  (∀ x : Nibble, lookup State.reset.S x = x ^^^ 1) ∧
  State.reset.P = #v[1, 5, 2, 0, 3, 7, 4, 6] ∧
  State.reset.SI = #v[1, 0, 3, 2, 5, 4, 7, 6, 9, 8, 11, 10, 13, 12, 15, 14] ∧
  State.reset.PI = #v[3, 0, 2, 4, 6, 1, 7, 5]

/-- Resting on R176, R177: reset replaces all four tables in any state, returns no response, abandons the command that was in
progress (`c`), and reaches the tables that `RSTS` followed by `RSTP` reaches. That reset is a move which carries the abandoned
command, and that the host's lists `moves` and `responses` are kept over it, is the model's choice (log entry 3). -/
def Obligations.HardwareResetReplacesTables : Prop :=
  ∀ (s : State) (c : Option CommandWord) (rest : List HostMove), s.moves = .reset c :: rest →
    ∃ t u v, step s = .next t ∧ t.moves = rest ∧ t.responses = s.responses ∧
      t.S = #v[1, 0, 3, 2, 5, 4, 7, 6, 9, 8, 11, 10, 13, 12, 15, 14] ∧
      t.SI = #v[1, 0, 3, 2, 5, 4, 7, 6, 9, 8, 11, 10, 13, 12, 15, 14] ∧
      t.P = #v[1, 5, 2, 0, 3, 7, 4, 6] ∧
      t.PI = #v[3, 0, 2, 4, 6, 1, 7, 5] ∧
      exec .rsts s = .next u ∧ exec .rstp u = .next v ∧ SameTables v t

/-- R24 to R27 at reset. -/
def Obligations.ResetHoldsTableInvariant : Prop := TablesInv State.reset

/-- R24 to R27, R160: no step breaks a table invariant. -/
def Obligations.EveryStepKeepsTableInvariant : Prop :=
  ∀ s t : State, TablesInv s → step s = .next t → TablesInv t

/-- R25, R27: on a permutation, being the inverse table is undoing it entry by entry, and then it is undone as well. -/
def Obligations.InverseTableIsTheTwoSidedInverse : Prop :=
  ∀ (w : Nat) (t u : Table w), IsPerm t →
    (u = inverseTable t ↔ ∀ x, lookup u (lookup t x) = x) ∧ (u = inverseTable t → ∀ y, lookup t (lookup u y) = y)

/-! ## Encoding and dispatch -/

/-- R55, R57, R59, R64: a well-formed command's word decodes to that command, every operand at every value. -/
def Obligations.DecodeOfEncodeIsIdentity : Prop :=
  ∀ i : Instr, i.wf = true → decode (encode i) = .ok i

/-- R55, R57, R59: a word that decodes is the word of the command it decodes to, and that command is well formed. -/
def Obligations.EncodeOfDecodeIsIdentity : Prop :=
  ∀ (cw : CommandWord) (i : Instr), decode cw = .ok i → i.wf = true ∧ encode i = cw

/-- R61: a word selects at most one row of the table by match and mask; the word of a row runs a command of that row, and a
word of no row raises IllegalCommand. -/
def Obligations.WordsSelectTheirTableRow : Prop :=
  ∀ (s : State) (cw : CommandWord) (rest : List HostMove), s.moves = .command cw :: rest →
    (∀ c d : Command, cw &&& maskOf c = matchOf c → cw &&& maskOf d = matchOf d → c = d) ∧
    (∀ c : Command, cw &&& maskOf c = matchOf c →
      ∃ i, decode cw = .ok i ∧ commandOf i = c ∧ step s = exec i { s with moves := rest }) ∧
    ((∀ c : Command, cw &&& maskOf c ≠ matchOf c) → step s = .next (answered 0x04 0 { s with moves := rest }))

/-- R61: a step at which the host's next move is a word that decodes to `i` is `exec i` in the state without that move. -/
def Obligations.StepRunsDecodedCommand : Prop :=
  ∀ (s : State) (cw : CommandWord) (rest : List HostMove) (i : Instr), s.moves = .command cw :: rest →
    decode cw = .ok i → step s = exec i { s with moves := rest }

/-- R62: every opcode outside the 18 is illegal, whatever the operand. -/
def Obligations.UndefinedOpcodesAreIllegal : Prop :=
  ∀ (s : State) (cw : CommandWord) (rest : List HostMove) (op : Nat), s.moves = .command cw :: rest →
    (cw.extractLsb' 128 8).toNat = op →
    op ≤ 0x0F ∨ (0x19 ≤ op ∧ op ≤ 0x21) ∨ (0x29 ≤ op ∧ op ≤ 0x2F) ∨ 0x32 ≤ op →
    step s = .next (answered 0x04 0 { s with moves := rest })

/-- R60: a command word with a reserved operand bit set is illegal; the reserved bits are R57's, by opcode. -/
def Obligations.ReservedBitsAreIllegal : Prop :=
  ∀ (s : State) (cw : CommandWord) (rest : List HostMove) (op : Byte) (k : Nat), s.moves = .command cw :: rest →
    cw.extractLsb' 128 8 = op → k < 128 → cw.getLsbD k = true →
    (op ∈ [0x10, 0x11] ∧ 4 ≤ k) ∨ (op ∈ [0x12, 0x13, 0x22, 0x23, 0x30, 0x31] ∧ 8 ≤ k) ∨
      op ∈ [0x15, 0x16, 0x17, 0x25, 0x26, 0x27] ∨ (op ∈ [0x24, 0x28] ∧ 64 ≤ k) →
    step s = .next (answered 0x04 0 { s with moves := rest })

/-- R158: the one status of every command word, by the order of the checks. -/
def Obligations.StatusFollowsCheckOrder : Prop :=
  ∀ (s : State) (cw : CommandWord) (rest : List HostMove) (op : Byte) (arg : Arg), TablesInv s →
    s.moves = .command cw :: rest → cw = op ++ arg →
    ∃ (t : State) (dat : Arg), step s = .next t ∧ t.responses = s.responses ++
      [((if ∀ c ∈ allCommands, opcodeOf c ≠ op then 0x04#8
        else if ∃ c ∈ allCommands, opcodeOf c = op ∧ arg &&& reservedMask (formatOf c) ≠ 0 then 0x04#8
        else if (op = 0x14 ∧ ¬PermSeq 16 (slots 16 arg)) ∨ (op = 0x24 ∧ ¬PermSeq 8 (slots 8 arg)) then 0x01#8
        else if (op = 0x18 ∧ ¬PermSeq 16 (slots 16 arg)) ∨ (op = 0x28 ∧ ¬PermSeq 8 (slots 8 arg)) then 0x02#8
        else 0x00#8) ++ dat : ResponseWord)]

/-- R59: words of every family, written out from the opcode map, decode to what they stand for. -/
def Obligations.WrittenWordsDecode : Prop :=
  decode 0x100000000000000000000000000000000A = .ok (.subn 0xA) ∧
  decode 0x14070009050C060A03080B0F02010D040E =
    .ok (.sets [14, 4, 13, 1, 2, 15, 11, 8, 3, 10, 6, 12, 5, 9, 0, 7]) ∧
  decode 0x230000000000000000000000000000000A = .ok (.iperm 0x0A) ∧
  decode 0x2800000000000000000507040601030002 = .ok (.ldp [2, 0, 3, 1, 6, 4, 7, 5]) ∧
  decode 0x31000000000000000000000000000000EC = .ok (.dec 0xEC)

/-- R64: what the assembler accepts is a command of the mnemonic given, and it refuses a literal that does not fit its slot or
a list of the wrong length. -/
def Obligations.AssembledWordsAreCommands : Prop :=
  ∀ (c : Command) (lits : List Nat),
    (literalsFit (formatOf c) lits = true →
      ∃ cw i, assemble c lits = some cw ∧ decode cw = .ok i ∧ commandOf i = c ∧
        ∀ k < 16, slot (argOf cw) k = BitVec.ofNat 8 (lits.getD k 0)) ∧
    (literalsFit (formatOf c) lits = false → assemble c lits = none)

/-! ## The substitution family -/

/-- R80: `SUBN` returns the entry, and no two nibbles have the same image. -/
def Obligations.SubnReturnsEntry : Prop :=
  ∀ (s : State) (n : Nibble), TablesInv s →
    exec (.subn n) s = .next (answered 0x00 ((lookup s.S n).setWidth 128) s) ∧
    ∀ m : Nibble, lookup s.S m = lookup s.S n → m = n

/-- R81: `ISUBN` returns the inverse entry; with the default table it agrees with `SUBN`. -/
def Obligations.IsubnReturnsInverseEntry : Prop :=
  ∀ (s : State) (n : Nibble), TablesInv s →
    exec (.isubn n) s = .next (answered 0x00 ((lookup s.SI n).setWidth 128) s) ∧
    (s.S = Config.sDefault → exec (.isubn n) s = exec (.subn n) s)

/-- R82: `SUB` substitutes both nibbles of the byte through `S`. -/
def Obligations.SubSubstitutesBothNibbles : Prop :=
  ∀ (s : State) (b : Byte), TablesInv s →
    exec (.sub b) s = .next (answered 0x00
      ((lookup s.S (b.extractLsb' 4 4) ++ lookup s.S (b.extractLsb' 0 4) : Byte).setWidth 128) s)

/-- R83: `ISUB` does the same through `SI`. -/
def Obligations.IsubSubstitutesThroughInverse : Prop :=
  ∀ (s : State) (b : Byte), TablesInv s →
    exec (.isub b) s = .next (answered 0x00
      ((lookup s.SI (b.extractLsb' 4 4) ++ lookup s.SI (b.extractLsb' 0 4) : Byte).setWidth 128) s)

/-- R85: a valid candidate replaces `S` and `SI` together and nothing else; any other is refused with InvalidTable and
changes nothing. -/
def Obligations.SetsReplacesTableOrFails : Prop :=
  ∀ (s : State) (vs : List Byte),
    ((vs.length = 16 ∧ (∀ v ∈ vs, v.toNat < 16) ∧ vs.Nodup) →
      ∃ S' SI' : Table 4, (∀ i : Nibble, lookup S' i = (vs.getD i.toNat 0).extractLsb' 0 4) ∧
        (∀ i : Nibble, lookup SI' (lookup S' i) = i) ∧
        exec (.sets vs) s = .next (answered 0x00 0 { s with S := S', SI := SI' })) ∧
    (¬(vs.length = 16 ∧ (∀ v ∈ vs, v.toNat < 16) ∧ vs.Nodup) → exec (.sets vs) s = .next (answered 0x01 0 s))

/-- R86: as `SETS`, but the status on failure is Format; on success the two are indistinguishable. -/
def Obligations.LdsLoadsTableOrFails : Prop :=
  ∀ (s : State) (vs : List Byte),
    ((vs.length = 16 ∧ (∀ v ∈ vs, v.toNat < 16) ∧ vs.Nodup) →
      exec (.lds vs) s = exec (.sets vs) s ∧
      ∃ S' SI' : Table 4, (∀ i : Nibble, lookup S' i = (vs.getD i.toNat 0).extractLsb' 0 4) ∧
        (∀ i : Nibble, lookup SI' (lookup S' i) = i) ∧
        exec (.lds vs) s = .next (answered 0x00 0 { s with S := S', SI := SI' })) ∧
    (¬(vs.length = 16 ∧ (∀ v ∈ vs, v.toNat < 16) ∧ vs.Nodup) → exec (.lds vs) s = .next (answered 0x02 0 s))

/-- R87, for the draw that is next, whatever it is (log entry 4): `RNDS` always succeeds, installs a permutation with its inverse,
and writes nothing else of the CORE; the new table does not depend on the old ones. The draw is then taken: the counter that
selects it, the model's own, advances by one, so that the next randomize command takes another draw. -/
def Obligations.RndsInstallsSomePermutation : Prop :=
  ∀ (s : State), ∃ S' SI' : Table 4, IsPerm S' ∧ (∀ x : Nibble, lookup SI' (lookup S' x) = x) ∧
    ∀ r : State, r.draws = s.draws →
      exec .rnds r = .next (answered 0x00 0 { r with S := S', SI := SI', draws := r.draws + 1 })

/-- R88: `RSTS` restores the default table and its inverse, in every state, and is idempotent. -/
def Obligations.RstsRestoresDefault : Prop :=
  ∀ s : State, ∃ t : State,
    t = { s with S := #v[1, 0, 3, 2, 5, 4, 7, 6, 9, 8, 11, 10, 13, 12, 15, 14],
                 SI := #v[1, 0, 3, 2, 5, 4, 7, 6, 9, 8, 11, 10, 13, 12, 15, 14] } ∧
    exec .rsts s = .next (answered 0x00 0 t) ∧ exec .rsts t = .next (answered 0x00 0 t)

/-- R89: `RDS` returns the sixteen entries of `S`, and `LDS` or `SETS` of what it returned restores exactly that table,
whatever happened in between. -/
def Obligations.RdsReturnsEntriesThatLoadBack : Prop :=
  ∀ s : State, ∃ d : Arg, exec .rds s = .next (answered 0x00 d s) ∧
    (∀ x : Nibble, d.extractLsb' (8 * x.toNat) 8 = (lookup s.S x).setWidth 8) ∧
    (TablesInv s → ∀ u : State,
      exec (.lds (slots 16 d)) u = .next (answered 0x00 0 { u with S := s.S, SI := s.SI }) ∧
      exec (.sets (slots 16 d)) u = .next (answered 0x00 0 { u with S := s.S, SI := s.SI }))

/-- R90: `ISUBN` and `SUBN`, and `ISUB` and `SUB`, undo each other in both orders, and `SUBN` and `SUB` are injective. -/
def Obligations.SubstitutionsUndoEachOther : Prop :=
  ∀ s : State, TablesInv s →
    (∀ n : Nibble, ∃ m : Nibble, exec (.subn n) s = .next (answered 0x00 (m.setWidth 128) s) ∧
      exec (.isubn m) s = .next (answered 0x00 (n.setWidth 128) s)) ∧
    (∀ m : Nibble, ∃ n : Nibble, exec (.isubn m) s = .next (answered 0x00 (n.setWidth 128) s) ∧
      exec (.subn n) s = .next (answered 0x00 (m.setWidth 128) s)) ∧
    (∀ b : Byte, ∃ c : Byte, exec (.sub b) s = .next (answered 0x00 (c.setWidth 128) s) ∧
      exec (.isub c) s = .next (answered 0x00 (b.setWidth 128) s)) ∧
    (∀ c : Byte, ∃ b : Byte, exec (.isub c) s = .next (answered 0x00 (b.setWidth 128) s) ∧
      exec (.sub b) s = .next (answered 0x00 (c.setWidth 128) s)) ∧
    (∀ n m : Nibble, exec (.subn n) s = exec (.subn m) s → n = m) ∧
    (∀ b c : Byte, exec (.sub b) s = exec (.sub c) s → b = c)

/-- R91: the default substitution table, as commands. -/
def Obligations.DefaultSubstitutionFlipsLowBits : Prop :=
  ∀ s : State, TablesInv s → s.S = #v[1, 0, 3, 2, 5, 4, 7, 6, 9, 8, 11, 10, 13, 12, 15, 14] →
    (∀ n : Nibble, exec (.subn n) s = .next (answered 0x00 ((n ^^^ 1).setWidth 128) s)) ∧
    ∀ b : Byte, exec (.sub b) s = .next (answered 0x00 ((b ^^^ 0x11).setWidth 128) s) ∧
      exec (.isub b) s = .next (answered 0x00 ((b ^^^ 0x11).setWidth 128) s) ∧
      exec (.sub (b ^^^ 0x11)) s = .next (answered 0x00 (b.setWidth 128) s) ∧ b ^^^ 0x11 ≠ b

/-! ## The permutation family -/

/-- R100: `PERM` scatters: source bit `i` lands at `P[i]`; equivalently bit `j` of the result is source bit `PI[j]`. -/
def Obligations.PermScattersBits : Prop :=
  ∀ (s : State) (b : Byte), TablesInv s →
    ∃ r : Byte, exec (.perm b) s = .next (answered 0x00 (r.setWidth 128) s) ∧
      (∀ i : BitPos, r.getLsbD (lookup s.P i).toNat = b.getLsbD i.toNat) ∧
      (∀ j : BitPos, r.getLsbD j.toNat = b.getLsbD (lookup s.PI j).toNat)

/-- R101: `IPERM` scatters through `PI`; equivalently bit `j` of the result is source bit `P[j]`. -/
def Obligations.IpermScattersThroughInverse : Prop :=
  ∀ (s : State) (b : Byte), TablesInv s →
    ∃ r : Byte, exec (.iperm b) s = .next (answered 0x00 (r.setWidth 128) s) ∧
      (∀ i : BitPos, r.getLsbD (lookup s.PI i).toNat = b.getLsbD i.toNat) ∧
      (∀ j : BitPos, r.getLsbD j.toNat = b.getLsbD (lookup s.P j).toNat)

/-- R100's corner cases: zeros and ones are fixed, a one-hot byte moves to its destination, and OR and AND pass through. -/
def Obligations.PermActsOnEachBit : Prop :=
  ∀ s : State, TablesInv s →
    exec (.perm 0x00) s = .next (answered 0x00 0x00 s) ∧
    exec (.perm 0xFF) s = .next (answered 0x00 0xFF s) ∧
    (∀ i : BitPos, exec (.perm (1#8 <<< i.toNat)) s =
      .next (answered 0x00 ((1#8 <<< (lookup s.P i).toNat).setWidth 128) s)) ∧
    ∀ x y : Byte, ∃ px py : Byte,
      exec (.perm x) s = .next (answered 0x00 (px.setWidth 128) s) ∧
      exec (.perm y) s = .next (answered 0x00 (py.setWidth 128) s) ∧
      exec (.perm (x ||| y)) s = .next (answered 0x00 ((px ||| py).setWidth 128) s) ∧
      exec (.perm (x &&& y)) s = .next (answered 0x00 ((px &&& py).setWidth 128) s)

/-- R103: a valid candidate replaces `P` and `PI` together and nothing else; any other is refused with InvalidTable and
changes nothing. -/
def Obligations.SetpReplacesTableOrFails : Prop :=
  ∀ (s : State) (qs : List Byte),
    ((qs.length = 8 ∧ (∀ q ∈ qs, q.toNat < 8) ∧ qs.Nodup) →
      ∃ P' PI' : Table 3, (∀ i : BitPos, lookup P' i = (qs.getD i.toNat 0).extractLsb' 0 3) ∧
        (∀ i : BitPos, lookup PI' (lookup P' i) = i) ∧
        exec (.setp qs) s = .next (answered 0x00 0 { s with P := P', PI := PI' })) ∧
    (¬(qs.length = 8 ∧ (∀ q ∈ qs, q.toNat < 8) ∧ qs.Nodup) → exec (.setp qs) s = .next (answered 0x01 0 s))

/-- R104: as `SETP`, but the status on failure is Format. -/
def Obligations.LdpLoadsTableOrFails : Prop :=
  ∀ (s : State) (qs : List Byte),
    ((qs.length = 8 ∧ (∀ q ∈ qs, q.toNat < 8) ∧ qs.Nodup) →
      exec (.ldp qs) s = exec (.setp qs) s ∧
      ∃ P' PI' : Table 3, (∀ i : BitPos, lookup P' i = (qs.getD i.toNat 0).extractLsb' 0 3) ∧
        (∀ i : BitPos, lookup PI' (lookup P' i) = i) ∧
        exec (.ldp qs) s = .next (answered 0x00 0 { s with P := P', PI := PI' })) ∧
    (¬(qs.length = 8 ∧ (∀ q ∈ qs, q.toNat < 8) ∧ qs.Nodup) → exec (.ldp qs) s = .next (answered 0x02 0 s))

/-- R105, for the draw that is next, whatever it is (log entry 4): `RNDP` always succeeds, installs a permutation with its inverse,
and writes nothing else of the CORE; the new table does not depend on the old ones. The draw is then taken: the counter that
selects it, the model's own, advances by one, so that the next randomize command takes another draw. -/
def Obligations.RndpInstallsSomePermutation : Prop :=
  ∀ (s : State), ∃ P' PI' : Table 3, IsPerm P' ∧ (∀ x : BitPos, lookup PI' (lookup P' x) = x) ∧
    ∀ r : State, r.draws = s.draws →
      exec .rndp r = .next (answered 0x00 0 { r with P := P', PI := PI', draws := r.draws + 1 })

/-- R106: `RSTP` restores the default table and its inverse, in every state, and is idempotent. -/
def Obligations.RstpRestoresDefault : Prop :=
  ∀ s : State, ∃ t : State,
    t = { s with P := #v[1, 5, 2, 0, 3, 7, 4, 6], PI := #v[3, 0, 2, 4, 6, 1, 7, 5] } ∧
    exec .rstp s = .next (answered 0x00 0 t) ∧ exec .rstp t = .next (answered 0x00 0 t)

/-- R107: `RDP` returns the eight entries of `P` with the upper half zero, and `LDP` or `SETP` of what it returned restores
exactly that table. -/
def Obligations.RdpReturnsEntriesThatLoadBack : Prop :=
  ∀ s : State, ∃ d : Arg, exec .rdp s = .next (answered 0x00 d s) ∧
    (∀ x : BitPos, d.extractLsb' (8 * x.toNat) 8 = (lookup s.P x).setWidth 8) ∧ d.extractLsb' 64 64 = 0 ∧
    (TablesInv s → ∀ u : State,
      exec (.ldp (slots 8 d)) u = .next (answered 0x00 0 { u with P := s.P, PI := s.PI }) ∧
      exec (.setp (slots 8 d)) u = .next (answered 0x00 0 { u with P := s.P, PI := s.PI }))

/-- R108: `IPERM` and `PERM` undo each other in both orders, `PERM` is injective, and it keeps the number of 1 bits. -/
def Obligations.PermutationsUndoEachOther : Prop :=
  ∀ s : State, TablesInv s →
    (∀ b : Byte, ∃ c : Byte, exec (.perm b) s = .next (answered 0x00 (c.setWidth 128) s) ∧
      exec (.iperm c) s = .next (answered 0x00 (b.setWidth 128) s) ∧
      (List.range 8).countP (fun j => c.getLsbD j) = (List.range 8).countP (fun i => b.getLsbD i)) ∧
    (∀ c : Byte, ∃ b : Byte, exec (.iperm c) s = .next (answered 0x00 (b.setWidth 128) s) ∧
      exec (.perm b) s = .next (answered 0x00 (c.setWidth 128) s)) ∧
    (∀ b c : Byte, exec (.perm b) s = exec (.perm c) s → b = c)

/-- R109: the one-hot images under the default permutation table, forward and inverse, and that it is no involution. -/
def Obligations.DefaultPermutationOneHotImages : Prop :=
  ∀ s : State, TablesInv s → s.P = #v[1, 5, 2, 0, 3, 7, 4, 6] →
    (∀ p ∈ [(0x01#8, 0x02#8), (0x02, 0x20), (0x04, 0x04), (0x08, 0x01), (0x10, 0x08), (0x20, 0x80), (0x40, 0x10),
      (0x80, 0x40)], exec (.perm p.1) s = .next (answered 0x00 (p.2.setWidth 128) s)) ∧
    (∀ p ∈ [(0x01#8, 0x08#8), (0x02, 0x01), (0x04, 0x04), (0x08, 0x10), (0x10, 0x40), (0x20, 0x02), (0x40, 0x80),
      (0x80, 0x20)], exec (.iperm p.1) s = .next (answered 0x00 (p.2.setWidth 128) s)) ∧
    exec (.perm 0x02) s = .next (answered 0x00 0x20 s)

/-! ## The draws -/

/-- R87, R105, PG6: whichever permutation is drawn, exactly it is installed with its inverse, and `RNDS` and `RNDP` are these
operations on the draws that are next. Each takes one draw: the counter that selects it, the model's own (log entry 4), advances
by one. -/
def Obligations.EveryDrawIsInstalled : Prop :=
  ∀ s : State,
    exec .rnds s = randomizeS (Config.draw16 s.draws) s ∧ exec .rndp s = randomizeP (Config.draw8 s.draws) s ∧
    (∀ pi : Equiv.Perm Nibble, ∃ S' SI' : Table 4, (∀ x, lookup S' x = pi x) ∧
      (∀ x, lookup SI' (pi x) = x) ∧
      randomizeS pi s = .next (answered 0x00 0 { s with S := S', SI := SI', draws := s.draws + 1 })) ∧
    (∀ pi : Equiv.Perm BitPos, ∃ P' PI' : Table 3, (∀ x, lookup P' x = pi x) ∧
      (∀ x, lookup PI' (pi x) = x) ∧
      randomizeP pi s = .next (answered 0x00 0 { s with P := P', PI := PI', draws := s.draws + 1 }))

/-- R87, R105, U1: the draws admit every permutation table and no other. -/
def Obligations.DrawsAreExactlyThePermutations : Prop :=
  (∀ t : Table 4, IsPerm t ↔ ∃ pi : Equiv.Perm Nibble, tableOfDraw pi = t) ∧
  (∀ t : Table 3, IsPerm t ↔ ∃ pi : Equiv.Perm BitPos, tableOfDraw pi = t)

/-! ## The cascades -/

/-- R120: `ENC` is one substitution stage and one permutation stage over the same state, and equals `SUB` followed by `PERM` of
its result. -/
def Obligations.EncSubstitutesThenPermutes : Prop :=
  ∀ (s : State) (b : Byte), TablesInv s →
    ∃ m r : Byte, m = lookup s.S (b.extractLsb' 4 4) ++ lookup s.S (b.extractLsb' 0 4) ∧
      (∀ i : BitPos, r.getLsbD (lookup s.P i).toNat = m.getLsbD i.toNat) ∧
      exec (.enc b) s = .next (answered 0x00 (r.setWidth 128) s) ∧
      exec (.sub b) s = .next (answered 0x00 (m.setWidth 128) s) ∧
      exec (.perm m) (answered 0x00 (m.setWidth 128) s) =
        .next (answered 0x00 (r.setWidth 128) (answered 0x00 (m.setWidth 128) s))

/-- R121: `DEC` is one inverse-permutation stage and one inverse-substitution stage over the same state, and equals `IPERM`
followed by `ISUB` of its result. -/
def Obligations.DecInversePermutesThenInverseSubstitutes : Prop :=
  ∀ (s : State) (b : Byte), TablesInv s →
    ∃ m r : Byte, (∀ i : BitPos, m.getLsbD (lookup s.PI i).toNat = b.getLsbD i.toNat) ∧
      r = lookup s.SI (m.extractLsb' 4 4) ++ lookup s.SI (m.extractLsb' 0 4) ∧
      exec (.dec b) s = .next (answered 0x00 (r.setWidth 128) s) ∧
      exec (.iperm b) s = .next (answered 0x00 (m.setWidth 128) s) ∧
      exec (.isub m) (answered 0x00 (m.setWidth 128) s) =
        .next (answered 0x00 (r.setWidth 128) (answered 0x00 (m.setWidth 128) s))

/-- R122: `DEC` of what `ENC` returned returns the operand, and the other way round, so both are bijections of the bytes. -/
def Obligations.EncAndDecAreInverseBijections : Prop :=
  ∀ s : State, TablesInv s →
    (∀ b : Byte, ∃ c : Byte, exec (.enc b) s = .next (answered 0x00 (c.setWidth 128) s) ∧
      exec (.dec c) (answered 0x00 (c.setWidth 128) s) =
        .next (answered 0x00 (b.setWidth 128) (answered 0x00 (c.setWidth 128) s))) ∧
    (∀ c : Byte, ∃ b : Byte, exec (.dec c) s = .next (answered 0x00 (b.setWidth 128) s) ∧
      exec (.enc b) (answered 0x00 (b.setWidth 128) s) =
        .next (answered 0x00 (c.setWidth 128) (answered 0x00 (b.setWidth 128) s))) ∧
    (∀ c : Byte, ∃! b : Byte, exec (.enc b) s = .next (answered 0x00 (c.setWidth 128) s)) ∧
    (∀ b : Byte, ∃! c : Byte, exec (.dec c) s = .next (answered 0x00 (b.setWidth 128) s))

/-- 90_conflicts C1: the corrected vector at reset; `ENC 0x00` is 0x0A, not 0x18. -/
def Obligations.CorrectedConcreteVector : Prop :=
  exec (.enc 0x00) State.reset = .next (answered 0x00 0x0A State.reset) ∧
  exec (.dec 0x0A) State.reset = .next (answered 0x00 0x00 State.reset) ∧
  exec (.dec 0x18) State.reset = .next (answered 0x00 0x41 State.reset)

/-! ## Rules over all commands -/

/-- R29: a command of the substitution family leaves `P` and `PI` alone, returns one response and takes no move; `RNDS`, and no
other, advances the model's draw counter (log entry 4), by one. -/
def Obligations.SubstitutionFamilyFrame : Prop :=
  ∀ (i : Instr) (s t : State), inSubstitutionFamily i = true → exec i s = .next t →
    t.P = s.P ∧ t.PI = s.PI ∧ t.moves = s.moves ∧ t.draws = (if i = .rnds then s.draws + 1 else s.draws) ∧
    ∃ rw, t.responses = s.responses ++ [rw]

/-- R29: a command of the permutation family leaves `S` and `SI` alone, returns one response and takes no move; `RNDP`, and no
other, advances the model's draw counter (log entry 4), by one. -/
def Obligations.PermutationFamilyFrame : Prop :=
  ∀ (i : Instr) (s t : State), inPermutationFamily i = true → exec i s = .next t →
    t.S = s.S ∧ t.SI = s.SI ∧ t.moves = s.moves ∧ t.draws = (if i = .rndp then s.draws + 1 else s.draws) ∧
    ∃ rw, t.responses = s.responses ++ [rw]

/-- Resting on R29: no command of one family reads the tables of the other. For `RNDS` and `RNDP` the two states compared share the
draw to come (they have the same `draws`), which is the model's choice (log entry 4): of two separate COREs the spec promises
nothing there (R28, N12). -/
def Obligations.FamiliesIgnoreTheOtherTables : Prop :=
  (∀ (i : Instr) (s t : State) (P' PI' : Table 3), inSubstitutionFamily i = true → TablesInv s →
    TablesInv { s with P := P', PI := PI' } → exec i s = .next t →
    exec i { s with P := P', PI := PI' } = .next { t with P := P', PI := PI' }) ∧
  (∀ (i : Instr) (s t : State) (S' SI' : Table 4), inPermutationFamily i = true → TablesInv s →
    TablesInv { s with S := S', SI := SI' } → exec i s = .next t →
    exec i { s with S := S', SI := SI' } = .next { t with S := S', SI := SI' })

/-- R47: transforms and read-outs change nothing but the list of responses, and answer the same when issued again; every
mutation but the randomize commands leaves the tables as they are when issued again. -/
def Obligations.RepeatedCommandsAreIdempotent : Prop :=
  (∀ (i : Instr) (s t : State), readsOnly i = true → exec i s = .next t →
    ∃ dat, t = answered 0x00 dat s ∧ exec i t = .next (answered 0x00 dat t)) ∧
  (∀ (i : Instr) (s t : State), readsOnly i = false → i ≠ .rnds → i ≠ .rndp → exec i s = .next t →
    ∃ u, exec i t = .next u ∧ SameTables t u)

/-- R20 to R23, R29: what may have happened when a step changed a table register. -/
def Obligations.TablesWrittenOnlyByTheirCommands : Prop :=
  ∀ s t : State, step s = .next t →
    ((t.S ≠ s.S ∨ t.SI ≠ s.SI) →
      (∃ c rest, s.moves = .reset c :: rest) ∨
      ∃ cw rest i, s.moves = .command cw :: rest ∧ decode cw = .ok i ∧
        ((∃ vs, i = .sets vs) ∨ (∃ vs, i = .lds vs) ∨ i = .rnds ∨ i = .rsts)) ∧
    ((t.P ≠ s.P ∨ t.PI ≠ s.PI) →
      (∃ c rest, s.moves = .reset c :: rest) ∨
      ∃ cw rest i, s.moves = .command cw :: rest ∧ decode cw = .ok i ∧
        ((∃ qs, i = .setp qs) ∨ (∃ qs, i = .ldp qs) ∨ i = .rndp ∨ i = .rstp))

/-- R176: only reset changes both tables in one step. -/
def Obligations.OnlyResetChangesBothTables : Prop :=
  ∀ s t : State, step s = .next t → t.S ≠ s.S → t.P ≠ s.P → ∃ c rest, s.moves = .reset c :: rest

/-- R157, R166: a step whose response is not OK returns data zero and changes nothing else. -/
def Obligations.FailuresChangeNothing : Prop :=
  ∀ (s t : State) (cw : CommandWord) (rest : List HostMove) (st : Byte) (dat : Arg), s.moves = .command cw :: rest →
    step s = .next t → t.responses = s.responses ++ [st ++ dat] → st ≠ 0x00 →
    dat = 0 ∧ t = answered st 0 { s with moves := rest }

/-- Resting on R183 (every command gets exactly one response), R186 and R166 (of a status the CORE may return, with data zero on an
error), R160 (no step breaks an invariant) and R177 (reset gets none). That a step with no move ahead changes nothing is the
model's choice (log entry 2), and so is that reset keeps the host's lists (log entry 3). -/
def Obligations.EveryStepIsSafe : Prop :=
  ∀ s : State, TablesInv s → SafeStep s

/-- R11, R48, R183, R185: a program of command words, whatever they are, runs to its end in as many steps, with one lawful response
for each word, and in order: after `k` steps the first `k` words have been taken and the responses are those to them, so the
`k`-th step adds the `k`-th response. -/
def Obligations.ProgramsRunToTheirEnd : Prop :=
  ∀ (cws : List CommandWord) (rest : List HostMove) (s : State), TablesInv s →
    s.moves = cws.map HostMove.command ++ rest →
    ∃ rws : List ResponseWord, rws.length = cws.length ∧ (∀ rw ∈ rws, LawfulResponse rw) ∧
      ∀ k ≤ cws.length, ∃ t : State, Host.Core.run Sys2Proof.core k s = .next t ∧ TablesInv t ∧
        t.moves = (cws.drop k).map HostMove.command ++ rest ∧ t.responses = s.responses ++ rws.take k

/-- R36: every pair of tables with the invariants is reached from reset by two commands that both succeed. -/
def Obligations.EveryTablePairIsReachable : Prop :=
  ∀ s : State, TablesInv s → ∃ (a b : CommandWord) (t : State),
    Host.Core.run Sys2Proof.core 2 { State.reset with moves := [.command a, .command b] } = .next t ∧
    SameTables s t ∧ t.responses = [0, 0]

/-- U3: in a state that breaks an invariant, every transform is refused; the stale inverse is never used (log entry 6). -/
def Obligations.BrokenTablesRefuseTransforms : Prop :=
  ∀ (i : Instr) (s : State), isTransform i = true → ¬TablesInv s → exec i s = .refused .brokenTables

/-- R10: with no move of the host ahead, a step changes nothing. The step itself is the model's choice (log entry 2). -/
def Obligations.IdleStepChangesNothing : Prop :=
  ∀ s : State, s.moves = [] → step s = .next s

/-! ## The host's software around the CORE -/

/-- R138 to R140: what the host saves from a read-out loads back, over any accepted path, into any CORE, and gives it the same
table. -/
def Obligations.SavedRecordsLoadBack : Prop :=
  ∀ (s u : State) (path : List Char), TablesInv s → pathAccepted path = true →
    (∃ rw cw, exec .rds s = .next { s with responses := s.responses ++ [rw] } ∧
      loadCommandS path (some (savedRecordS rw)) = .ok cw ∧
      runWord cw u = .next (answered 0x00 0 { u with S := s.S, SI := s.SI })) ∧
    (∃ rw cw, exec .rdp s = .next { s with responses := s.responses ++ [rw] } ∧
      loadCommandP path (some (savedRecordP rw)) = .ok cw ∧
      runWord cw u = .next (answered 0x00 0 { u with P := s.P, PI := s.PI }))

/-- R137, R139: with a path that lacks the extension the host sends no command and reports FormatError; with a missing file it
reports NotFoundError; and it reports FormatError, sending nothing, for each of R139's causes: a wrong number of entries, a
missing key, an extra key, a value that is no integer, a value below 0 or above 255. The keys are the decimal strings of 0 to 15.
That a record under another top-level key is the missing field of R139 is the model's reading (log entry 13). -/
def Obligations.RejectedFilesSendNoCommand : Prop :=
  ∀ path : List Char,
    (pathAccepted path = false → ∀ file : Option Record,
      loadCommandS path file = .error .format ∧ loadCommandP path file = .error .format ∧
      saveCommandS path = .error .format ∧ saveCommandP path = .error .format) ∧
    (pathAccepted path = true →
      loadCommandS path none = .error .notFound ∧ loadCommandP path none = .error .notFound ∧
      (∀ entries : List (List Char × Option Int),
        entries.length ≠ 16 ∨ (∃ i < 16, ∀ e ∈ entries, e.1 ≠ Nat.toDigits 10 i) ∨
          (∃ e ∈ entries, ∀ i < 16, e.1 ≠ Nat.toDigits 10 i) ∨ (∃ e ∈ entries, e.2 = none) ∨
          (∃ e ∈ entries, ∃ v : Int, e.2 = some v ∧ (v < 0 ∨ 255 < v)) →
        loadCommandS path (some (.constants entries)) = .error .format) ∧
      (∀ elements : List (Option Int),
        elements.length ≠ 8 ∨ none ∈ elements ∨ (∃ v : Int, some v ∈ elements ∧ (v < 0 ∨ 255 < v)) →
        loadCommandP path (some (.permutation elements)) = .error .format) ∧
      (∀ elements, loadCommandS path (some (.permutation elements)) = .error .format) ∧
      (∀ entries, loadCommandP path (some (.constants entries)) = .error .format) ∧
      loadCommandS path (some .other) = .error .format ∧ loadCommandP path (some .other) = .error .format)

/-- Resting on R139: a record with none of those causes is sent: sixteen values 0 to 255 under the keys 0 to 15, in any order of the
keys, as one `LDS`, and eight values 0 to 255 as one `LDP`. That values 16 to 255 (for `S`) or 8 to 255 (for `P`), which R139 says may
be left to the CORE to reject, are always left to it is the model's choice (log entry 15). -/
def Obligations.ProperRecordsAreSent : Prop :=
  ∀ path : List Char, pathAccepted path = true →
    (∀ (vs : List Byte) (entries : List (List Char × Option Int)), vs.length = 16 →
      entries.Perm ((List.range 16).map fun i => (Nat.toDigits 10 i, some (Int.ofNat (vs.getD i 0).toNat))) →
      loadCommandS path (some (.constants entries)) = .ok (encode (.lds vs))) ∧
    (∀ qs : List Byte, qs.length = 8 →
      loadCommandP path (some (.permutation (qs.map fun q => some (Int.ofNat q.toNat)))) = .ok (encode (.ldp qs)))
end

