-- ==== Sys2Proof/Laws/Operands.lean ====
section
/-! SUPPORT. Laws/Operands.lean: what lookups, permutations, inverses, scatters and payloads do, once each. -/

namespace Sys2Proof.Laws

open Sys2Proof.Machine

variable {w : Nat}

@[simp] theorem lookup_ofFn (f : Fin (2 ^ w) → BitVec w) (x : BitVec w) :
    lookup (Vector.ofFn f) x = f x.toFin := by
  simp [lookup]

/-- Tables with the same entries are the same table. -/
theorem table_ext {t u : Table w} (h : ∀ x, lookup t x = lookup u x) : t = u := by
  apply Vector.ext
  intro i hi
  simpa [lookup] using h (BitVec.ofFin ⟨i, hi⟩)

/-- A table is a permutation exactly when its lookup is injective. -/
theorem isPerm_iff_injective (t : Table w) : IsPerm t ↔ Function.Injective (lookup t) := by
  rw [IsPerm, List.nodup_iff_injective_getElem]
  constructor
  · intro h x y hxy
    have hx : x.toNat < t.toList.length := by simpa using x.isLt
    have hy : y.toNat < t.toList.length := by simpa using y.isLt
    have := @h ⟨x.toNat, hx⟩ ⟨y.toNat, hy⟩ (by simpa [lookup] using hxy)
    exact BitVec.eq_of_toNat_eq (by simpa using this)
  · intro h i j hij
    have hi : i.val < 2 ^ w := by simpa using i.isLt
    have hj : j.val < 2 ^ w := by simpa using j.isLt
    have := @h (BitVec.ofFin ⟨i.val, hi⟩) (BitVec.ofFin ⟨j.val, hj⟩) (by simpa [lookup] using hij)
    exact Fin.ext (by simpa using this)

/-- The inverse table undoes a permutation (R15, R25). -/
theorem lookup_inverseTable_lookup {t : Table w} (h : IsPerm t) (x : BitVec w) :
    lookup (inverseTable t) (lookup t x) = x := by
  have hx : x.toNat < t.toList.length := by simpa using x.isLt
  have hl : lookup t x = t.toList[x.toNat] := by simp [lookup]
  rw [inverseTable, lookup_ofFn]
  have : BitVec.ofFin (lookup t x).toFin = t.toList[x.toNat] := by rw [← hl]
  rw [this, List.Nodup.idxOf_getElem h]
  simp

/-- A permutation undoes its inverse table (R25). -/
theorem lookup_lookup_inverseTable {t : Table w} (h : IsPerm t) (y : BitVec w) :
    lookup t (lookup (inverseTable t) y) = y := by
  obtain ⟨x, rfl⟩ := (Finite.injective_iff_surjective.mp ((isPerm_iff_injective t).mp h)) y
  rw [lookup_inverseTable_lookup h]

@[simp] theorem lookup_tableOfSlots (vs : List Byte) (x : BitVec w) :
    lookup (tableOfSlots w vs) x = (vs.getD x.toNat 0).setWidth w := by
  simp [tableOfSlots]

@[simp] theorem lookup_tableOfDraw (pi : Equiv.Perm (BitVec w)) (x : BitVec w) :
    lookup (tableOfDraw pi) x = pi x := by
  simp [tableOfDraw]

/-- A valid candidate gives a permutation (R84, R102). -/
theorem isPerm_tableOfSlots {vs : List Byte} (hw : w ≤ 8) (h : PermSeq (2 ^ w) vs) : IsPerm (tableOfSlots w vs) := by
  obtain ⟨hlen, hlt, hnd⟩ := h
  rw [isPerm_iff_injective]
  intro x y hxy
  have hx : x.toNat < vs.length := hlen ▸ x.isLt
  have hy : y.toNat < vs.length := hlen ▸ y.isLt
  have h8 : 2 ^ w ≤ 2 ^ 8 := Nat.pow_le_pow_right (by omega) hw
  have hvx := hlt _ (List.getElem_mem hx)
  have hvy := hlt _ (List.getElem_mem hy)
  simp only [lookup_tableOfSlots, List.getD_eq_getElem?_getD, List.getElem?_eq_getElem hx,
    List.getElem?_eq_getElem hy, Option.getD_some] at hxy
  have hnat := congrArg BitVec.toNat hxy
  simp only [BitVec.toNat_setWidth, Nat.mod_eq_of_lt hvx, Nat.mod_eq_of_lt hvy] at hnat
  exact BitVec.eq_of_toNat_eq ((List.Nodup.getElem_inj_iff hnd).mp (BitVec.eq_of_toNat_eq hnat))

/-- Every draw gives a permutation (R87, R105). -/
theorem isPerm_tableOfDraw (pi : Equiv.Perm (BitVec w)) : IsPerm (tableOfDraw pi) := by
  rw [isPerm_iff_injective]
  intro x y hxy
  simpa using hxy

/-- A byte is its two nibbles (R42). -/
theorem high_append_low (b : Byte) : highNibble b ++ lowNibble b = b := by
  apply BitVec.eq_of_getLsbD_eq
  intro i hi
  simp only [highNibble, lowNibble, BitVec.getLsbD_append, BitVec.getLsbD_extractLsb']
  by_cases h : i < 4
  · simp [h]
  · have h4 : 4 + (i - 4) = i := by omega
    have h5 : i - 4 < 4 := by omega
    simp [h, h4, h5]

@[simp] theorem highNibble_append (h l : Nibble) : highNibble (h ++ l) = h := by
  apply BitVec.eq_of_getLsbD_eq
  intro i hi
  simp only [highNibble, BitVec.getLsbD_append, BitVec.getLsbD_extractLsb']
  simp [hi]

@[simp] theorem lowNibble_append (h l : Nibble) : lowNibble (h ++ l) = l := by
  apply BitVec.eq_of_getLsbD_eq
  intro i hi
  simp only [lowNibble, BitVec.getLsbD_append, BitVec.getLsbD_extractLsb']
  simp [hi]

/-- Substituting through a permutation and then through its inverse gives the byte back (R90). -/
theorem substituteByte_inverse {t : Table 4} (h : IsPerm t) (b : Byte) :
    substituteByte (inverseTable t) (substituteByte t b) = b := by
  simp [substituteByte, lookup_inverseTable_lookup h, high_append_low]

/-- The other direction of R90. -/
theorem substituteByte_of_inverse {t : Table 4} (h : IsPerm t) (b : Byte) :
    substituteByte t (substituteByte (inverseTable t) b) = b := by
  simp [substituteByte, lookup_lookup_inverseTable h, high_append_low]

/-- A fold of scatter contributions sets bit `j` exactly where some contributing source bit has destination `j`. -/
theorem getLsbD_foldl_scatterBit (t : Table 3) (b : Byte) (is : List Nat) (r : Byte) (j : Nat) (hj : j < 8) :
    (is.foldl (scatterBit t b) r).getLsbD j =
      (r.getLsbD j || is.any fun i => b.getLsbD i && (lookup t (BitVec.ofNat 3 i)).toNat == j) := by
  induction is generalizing r with
  | nil => simp
  | cons i is ih =>
    rw [List.foldl_cons, ih, List.any_cons, scatterBit]
    split
    next hb =>
      have hone : (1#8 <<< (lookup t (BitVec.ofNat 3 i)).toNat).getLsbD j =
          ((lookup t (BitVec.ofNat 3 i)).toNat == j) := by
        rw [BitVec.getLsbD_shiftLeft, BitVec.getLsbD_one]
        rw [Bool.eq_iff_iff]
        simp [hj]
        omega
      rw [BitVec.getLsbD_or, hone, hb]
      simp [Bool.or_assoc]
    next hb => simp [hb]

/-- Bit `j` of a scattered byte (R100): set exactly where a set source bit has destination `j`. -/
theorem getLsbD_scatterByte (t : Table 3) (b : Byte) (j : BitPos) :
    (scatterByte t b).getLsbD j.toNat = true ↔ ∃ i : BitPos, b.getLsbD i.toNat = true ∧ lookup t i = j := by
  rw [scatterByte, getLsbD_foldl_scatterBit _ _ _ _ _ j.isLt]
  simp only [BitVec.ofNat_eq_ofNat, BitVec.getLsbD_zero, Bool.false_or, List.any_eq_true, List.mem_range,
    Bool.and_eq_true, beq_iff_eq]
  constructor
  · rintro ⟨i, hi, hb, hj⟩
    refine ⟨BitVec.ofNat 3 i, ?_, BitVec.eq_of_toNat_eq hj⟩
    rwa [BitVec.toNat_ofNat, Nat.mod_eq_of_lt hi]
  · rintro ⟨i, hb, rfl⟩
    exact ⟨i.toNat, i.isLt, hb, by simp⟩

/-- Through a permutation, source bit `i` lands at its destination (R100). -/
theorem getLsbD_scatterByte_lookup {t : Table 3} (h : IsPerm t) (b : Byte) (i : BitPos) :
    (scatterByte t b).getLsbD (lookup t i).toNat = b.getLsbD i.toNat := by
  rw [Bool.eq_iff_iff, getLsbD_scatterByte]
  constructor
  · rintro ⟨k, hk, hki⟩
    rwa [← (isPerm_iff_injective t).mp h hki]
  · intro hb
    exact ⟨i, hb, rfl⟩

/-- The gather form of R100. -/
theorem getLsbD_scatterByte_gather {t : Table 3} (h : IsPerm t) (b : Byte) (j : BitPos) :
    (scatterByte t b).getLsbD j.toNat = b.getLsbD (lookup (inverseTable t) j).toNat := by
  have := getLsbD_scatterByte_lookup h b (lookup (inverseTable t) j)
  rwa [lookup_lookup_inverseTable h] at this

/-- The gather form of R101. -/
theorem getLsbD_scatterByte_inverse {t : Table 3} (h : IsPerm t) (b : Byte) (j : BitPos) :
    (scatterByte (inverseTable t) b).getLsbD j.toNat = b.getLsbD (lookup t j).toNat := by
  rw [Bool.eq_iff_iff, getLsbD_scatterByte]
  constructor
  · rintro ⟨i, hi, rfl⟩
    rwa [lookup_lookup_inverseTable h]
  · intro hb
    exact ⟨lookup t j, hb, lookup_inverseTable_lookup h j⟩

/-- Two bytes that agree at every bit position are equal. -/
theorem byte_ext {a b : Byte} (h : ∀ j : BitPos, a.getLsbD j.toNat = b.getLsbD j.toNat) : a = b := by
  apply BitVec.eq_of_getLsbD_eq
  intro i hi
  simpa [Nat.mod_eq_of_lt hi] using h (BitVec.ofNat 3 i)

/-- Bit `j` of a payload is bit `j % 8` of slot `j / 8` (R43). -/
theorem getLsbD_packSlots (vs : List Byte) (j : Nat) :
    (packSlots vs).getLsbD j = (decide (j < 128) && (vs.getD (j / 8) 0).getLsbD (j % 8)) := by
  induction vs generalizing j with
  | nil => simp [packSlots]
  | cons v vs ih =>
    simp only [packSlots, BitVec.getLsbD_or, BitVec.getLsbD_shiftLeft, BitVec.getLsbD_setWidth, ih]
    by_cases h : j < 8
    · have h0 : j / 8 = 0 := by omega
      have h1 : j % 8 = j := by omega
      simp [h, h0, h1]
    · have h0 : j / 8 = (j - 8) / 8 + 1 := by omega
      have h1 : j % 8 = (j - 8) % 8 := by omega
      have h2 : v.getLsbD j = false := BitVec.getLsbD_of_ge v j (by omega)
      by_cases h3 : j < 128
      · have h4 : j - 8 < 128 := by omega
        simp [h, h0, h1, h2, h3, h4]
      · simp [h3, h2]

/-- Slot `i` of the payload of a list is its member `i` (R43). -/
theorem slot_packSlots (vs : List Byte) (i : Nat) (hi : i < 16) : slot (packSlots vs) i = vs.getD i 0 := by
  apply BitVec.eq_of_getLsbD_eq
  intro j hj
  have h0 : (8 * i + j) / 8 = i := by omega
  have h1 : (8 * i + j) % 8 = j := by omega
  have h2 : 8 * i + j < 128 := by omega
  simp only [slot, BitVec.getLsbD_extractLsb', getLsbD_packSlots, h0, h1]
  simp [h2, hj]

/-- Slot `x` of a whole-table payload is entry `x`, zero-extended (R43, R58). -/
theorem slot_tablePayload (hw : w ≤ 4) (t : Table w) (x : BitVec w) :
    slot (tablePayload t) x.toNat = (lookup t x).setWidth 8 := by
  have h16 : 2 ^ w ≤ 2 ^ 4 := Nat.pow_le_pow_right (by omega) hw
  have hx : x.toNat < (t.toList.map (BitVec.setWidth 8)).length := by simpa using x.isLt
  rw [tablePayload, slot_packSlots _ _ (by have := x.isLt; omega), List.getD_eq_getElem?_getD,
    List.getElem?_eq_getElem hx]
  simp [lookup]

/-- Slots at or above the table's size are zero in its payload (R43). -/
theorem slot_tablePayload_above (t : Table w) (i : Nat) (hi : i < 16) (h : 2 ^ w ≤ i) :
    slot (tablePayload t) i = 0 := by
  rw [tablePayload, slot_packSlots _ _ hi, List.getD_eq_getElem?_getD, List.getElem?_eq_none (by simpa using h)]
  rfl

end Sys2Proof.Laws
end

