-- ==== Sys2Proof/Laws/PerInstr.lean ====
section
/-! SUPPORT. Laws/PerInstr.lean: statements made of every command as syntax, one lemma per constructor of Instr. -/

namespace Sys2Proof.Laws

open Sys2Proof.Machine

theorem opOf_append (op : Byte) (arg : Arg) : opOf (op ++ arg) = op := by
  apply BitVec.eq_of_getLsbD_eq
  intro i hi
  simp only [opOf, BitVec.getLsbD_append, BitVec.getLsbD_extractLsb']
  simp [hi]

theorem argOf_append (op : Byte) (arg : Arg) : argOf (op ++ arg) = arg := by
  apply BitVec.eq_of_getLsbD_eq
  intro i hi
  simp only [argOf, BitVec.getLsbD_append, BitVec.getLsbD_extractLsb']
  simp [hi]

/-- A value of at most four bits has no bit under the mask of format N. -/
theorem nibble_and_mask (n : Nibble) : n.setWidth 128 &&& reservedMask .n = 0 := by
  revert n; decide

/-- A value of at most eight bits has no bit under the mask of format B. -/
theorem byte_and_mask (b : Byte) : b.setWidth 128 &&& reservedMask .b = 0 := by
  have hb : ∀ i, 8 ≤ i → b.getLsbD i = false := fun i hi => BitVec.getLsbD_of_ge b i hi
  apply BitVec.eq_of_getLsbD_eq
  intro i hi
  by_cases h : i < 8
  · have : (reservedMask .b).getLsbD i = false := by revert i; decide
    simp [this]
  · simp [hb i (by omega)]

/-- Eight slots leave the upper half of the operand zero. -/
theorem packSlots_and_mask (qs : List Byte) (h : qs.length = 8) : packSlots qs &&& reservedMask .t8 = 0 := by
  apply BitVec.eq_of_getLsbD_eq
  intro i hi
  by_cases hlt : i < 64
  · have : (reservedMask .t8).getLsbD i = false := by revert i; decide
    simp [this]
  · have hn : qs.getD (i / 8) 0 = 0 := by
      rw [List.getD_eq_getElem?_getD, List.getElem?_eq_none (by omega)]
      rfl
    rw [BitVec.getLsbD_and, getLsbD_packSlots, hn]
    simp

/-- Where a command's word puts what (R55, R57, R59): its opcode in the opcode field and, if it is well formed, zero in every
reserved bit of its format. -/
def Layout.Statement (i : Instr) : Prop :=
  opOf (encode i) = opcodeOf (commandOf i) ∧
    (i.wf = true → argOf (encode i) &&& reservedMask (formatOf (commandOf i)) = 0)

theorem Layout.subn (n : Nibble) : Layout.Statement (.subn n) :=
  ⟨opOf_append _ _, fun _ => by rw [encode, argOf_append]; exact nibble_and_mask n⟩

theorem Layout.isubn (n : Nibble) : Layout.Statement (.isubn n) :=
  ⟨opOf_append _ _, fun _ => by rw [encode, argOf_append]; exact nibble_and_mask n⟩

theorem Layout.sub (b : Byte) : Layout.Statement (.sub b) :=
  ⟨opOf_append _ _, fun _ => by rw [encode, argOf_append]; exact byte_and_mask b⟩

theorem Layout.isub (b : Byte) : Layout.Statement (.isub b) :=
  ⟨opOf_append _ _, fun _ => by rw [encode, argOf_append]; exact byte_and_mask b⟩

theorem Layout.sets (vs : List Byte) : Layout.Statement (.sets vs) :=
  ⟨opOf_append _ _, fun _ => BitVec.and_zero⟩

theorem Layout.rnds : Layout.Statement .rnds := ⟨opOf_append _ _, fun _ => by rw [encode, argOf_append]; rfl⟩

theorem Layout.rsts : Layout.Statement .rsts := ⟨opOf_append _ _, fun _ => by rw [encode, argOf_append]; rfl⟩

theorem Layout.rds : Layout.Statement .rds := ⟨opOf_append _ _, fun _ => by rw [encode, argOf_append]; rfl⟩

theorem Layout.lds (vs : List Byte) : Layout.Statement (.lds vs) :=
  ⟨opOf_append _ _, fun _ => BitVec.and_zero⟩

theorem Layout.perm (b : Byte) : Layout.Statement (.perm b) :=
  ⟨opOf_append _ _, fun _ => by rw [encode, argOf_append]; exact byte_and_mask b⟩

theorem Layout.iperm (b : Byte) : Layout.Statement (.iperm b) :=
  ⟨opOf_append _ _, fun _ => by rw [encode, argOf_append]; exact byte_and_mask b⟩

theorem Layout.setp (qs : List Byte) : Layout.Statement (.setp qs) :=
  ⟨opOf_append _ _, fun h => by
    rw [encode, argOf_append]; exact packSlots_and_mask qs (by simpa [Instr.wf] using h)⟩

theorem Layout.rndp : Layout.Statement .rndp := ⟨opOf_append _ _, fun _ => by rw [encode, argOf_append]; rfl⟩

theorem Layout.rstp : Layout.Statement .rstp := ⟨opOf_append _ _, fun _ => by rw [encode, argOf_append]; rfl⟩

theorem Layout.rdp : Layout.Statement .rdp := ⟨opOf_append _ _, fun _ => by rw [encode, argOf_append]; rfl⟩

theorem Layout.ldp (qs : List Byte) : Layout.Statement (.ldp qs) :=
  ⟨opOf_append _ _, fun h => by
    rw [encode, argOf_append]; exact packSlots_and_mask qs (by simpa [Instr.wf] using h)⟩

theorem Layout.enc (b : Byte) : Layout.Statement (.enc b) :=
  ⟨opOf_append _ _, fun _ => by rw [encode, argOf_append]; exact byte_and_mask b⟩

theorem Layout.dec (b : Byte) : Layout.Statement (.dec b) :=
  ⟨opOf_append _ _, fun _ => by rw [encode, argOf_append]; exact byte_and_mask b⟩

end Sys2Proof.Laws
end

