-- ==== Sys2Proof/Laws/Decode.lean ====
section
/-! SUPPORT. Laws/Decode.lean: what the decoder does with a word, once: the two fields of a word, the row an opcode selects, and
when a word decodes to what. -/

namespace Sys2Proof.Laws

open Sys2Proof.Machine

/-- Every row is in the opcode map. -/
theorem mem_allCommands (c : Command) : c ∈ allCommands := by cases c <;> decide

/-- A row's opcode selects that row. -/
theorem commandOfOpcode_opcodeOf (c : Command) : commandOfOpcode (opcodeOf c) = some c := by cases c <;> decide

/-- The 18 opcodes are distinct (R61). -/
theorem opcodeOf_injective : Function.Injective opcodeOf := by
  intro c d h
  have hc := commandOfOpcode_opcodeOf c
  rw [h, commandOfOpcode_opcodeOf] at hc
  exact (Option.some.inj hc).symm

/-- A row that an opcode selects has that opcode. -/
theorem opcodeOf_of_commandOfOpcode {op : Byte} {c : Command} (h : commandOfOpcode op = some c) : opcodeOf c = op := by
  simpa using List.find?_some h

/-- A command word is its two fields (R55). -/
theorem opOf_append_argOf (cw : CommandWord) : (opOf cw ++ argOf cw : CommandWord) = cw := by
  apply BitVec.eq_of_getLsbD_eq
  intro i hi
  simp only [opOf, argOf, BitVec.getLsbD_append, BitVec.getLsbD_extractLsb']
  by_cases h : i < 128
  · simp [h]
  · have h1 : i - 128 < 8 := by omega
    have h2 : 128 + (i - 128) = i := by omega
    simp [h, h1, h2]

/-- A word of a row with its reserved bits clear decodes to that row's command (R61). -/
theorem decode_of_row {cw : CommandWord} {c : Command} (hop : opcodeOf c = opOf cw)
    (harg : argOf cw &&& reservedMask (formatOf c) = 0) : decode cw = .ok (buildInstr (argOf cw) c) := by
  unfold decode
  simp only [← hop, commandOfOpcode_opcodeOf, if_pos harg]

/-- A word that decodes is a word of a row with its reserved bits clear (R61). -/
theorem decode_eq_ok {cw : CommandWord} {i : Instr} (h : decode cw = .ok i) :
    ∃ c, opcodeOf c = opOf cw ∧ argOf cw &&& reservedMask (formatOf c) = 0 ∧ i = buildInstr (argOf cw) c := by
  unfold decode at h
  split at h
  · cases h
  next c hc =>
    split at h
    next hm =>
      cases h
      exact ⟨c, opcodeOf_of_commandOfOpcode hc, hm, rfl⟩
    · cases h

/-- The command built from a row is of that row. -/
@[simp] theorem commandOf_buildInstr (arg : Arg) (c : Command) : commandOf (buildInstr arg c) = c := by cases c <;> rfl

end Sys2Proof.Laws
end

