-- ==== Sys2Proof/Laws/State.lean ====
section
/-! SUPPORT. Laws/State.lean: each field after each update of the state. -/

namespace Sys2Proof.Laws

open Sys2Proof.Machine

@[simp] theorem respond_S (st : Status) (dat : Arg) (s : State) : (respond st dat s).S = s.S := rfl
@[simp] theorem respond_SI (st : Status) (dat : Arg) (s : State) : (respond st dat s).SI = s.SI := rfl
@[simp] theorem respond_P (st : Status) (dat : Arg) (s : State) : (respond st dat s).P = s.P := rfl
@[simp] theorem respond_PI (st : Status) (dat : Arg) (s : State) : (respond st dat s).PI = s.PI := rfl
@[simp] theorem respond_moves (st : Status) (dat : Arg) (s : State) : (respond st dat s).moves = s.moves := rfl
@[simp] theorem respond_responses (st : Status) (dat : Arg) (s : State) : (respond st dat s).responses = s.responses ++ [responseWord st dat] := rfl
@[simp] theorem respond_draws (st : Status) (dat : Arg) (s : State) : (respond st dat s).draws = s.draws := rfl

@[simp] theorem writeS_S (t : Table 4) (s : State) : (writeS t s).S = t := rfl
@[simp] theorem writeS_SI (t : Table 4) (s : State) : (writeS t s).SI = inverseTable t := rfl
@[simp] theorem writeS_P (t : Table 4) (s : State) : (writeS t s).P = s.P := rfl
@[simp] theorem writeS_PI (t : Table 4) (s : State) : (writeS t s).PI = s.PI := rfl
@[simp] theorem writeS_moves (t : Table 4) (s : State) : (writeS t s).moves = s.moves := rfl
@[simp] theorem writeS_responses (t : Table 4) (s : State) : (writeS t s).responses = s.responses := rfl
@[simp] theorem writeS_draws (t : Table 4) (s : State) : (writeS t s).draws = s.draws := rfl

@[simp] theorem writeP_S (t : Table 3) (s : State) : (writeP t s).S = s.S := rfl
@[simp] theorem writeP_SI (t : Table 3) (s : State) : (writeP t s).SI = s.SI := rfl
@[simp] theorem writeP_P (t : Table 3) (s : State) : (writeP t s).P = t := rfl
@[simp] theorem writeP_PI (t : Table 3) (s : State) : (writeP t s).PI = inverseTable t := rfl
@[simp] theorem writeP_moves (t : Table 3) (s : State) : (writeP t s).moves = s.moves := rfl
@[simp] theorem writeP_responses (t : Table 3) (s : State) : (writeP t s).responses = s.responses := rfl
@[simp] theorem writeP_draws (t : Table 3) (s : State) : (writeP t s).draws = s.draws := rfl

@[simp] theorem takeDraw_S (s : State) : (takeDraw s).S = s.S := rfl
@[simp] theorem takeDraw_SI (s : State) : (takeDraw s).SI = s.SI := rfl
@[simp] theorem takeDraw_P (s : State) : (takeDraw s).P = s.P := rfl
@[simp] theorem takeDraw_PI (s : State) : (takeDraw s).PI = s.PI := rfl
@[simp] theorem takeDraw_moves (s : State) : (takeDraw s).moves = s.moves := rfl
@[simp] theorem takeDraw_responses (s : State) : (takeDraw s).responses = s.responses := rfl
@[simp] theorem takeDraw_draws (s : State) : (takeDraw s).draws = s.draws + 1 := rfl

@[simp] theorem restoreS_S (s : State) : (restoreS s).S = Config.sDefault := rfl
@[simp] theorem restoreS_SI (s : State) : (restoreS s).SI = Config.siDefault := rfl
@[simp] theorem restoreS_P (s : State) : (restoreS s).P = s.P := rfl
@[simp] theorem restoreS_PI (s : State) : (restoreS s).PI = s.PI := rfl
@[simp] theorem restoreS_moves (s : State) : (restoreS s).moves = s.moves := rfl
@[simp] theorem restoreS_responses (s : State) : (restoreS s).responses = s.responses := rfl
@[simp] theorem restoreS_draws (s : State) : (restoreS s).draws = s.draws := rfl

@[simp] theorem restoreP_S (s : State) : (restoreP s).S = s.S := rfl
@[simp] theorem restoreP_SI (s : State) : (restoreP s).SI = s.SI := rfl
@[simp] theorem restoreP_P (s : State) : (restoreP s).P = Config.pDefault := rfl
@[simp] theorem restoreP_PI (s : State) : (restoreP s).PI = Config.piDefault := rfl
@[simp] theorem restoreP_moves (s : State) : (restoreP s).moves = s.moves := rfl
@[simp] theorem restoreP_responses (s : State) : (restoreP s).responses = s.responses := rfl
@[simp] theorem restoreP_draws (s : State) : (restoreP s).draws = s.draws := rfl

@[simp] theorem hardReset_S (s : State) : (hardReset s).S = Config.sDefault := rfl
@[simp] theorem hardReset_SI (s : State) : (hardReset s).SI = Config.siDefault := rfl
@[simp] theorem hardReset_P (s : State) : (hardReset s).P = Config.pDefault := rfl
@[simp] theorem hardReset_PI (s : State) : (hardReset s).PI = Config.piDefault := rfl
@[simp] theorem hardReset_moves (s : State) : (hardReset s).moves = s.moves := rfl
@[simp] theorem hardReset_responses (s : State) : (hardReset s).responses = s.responses := rfl
@[simp] theorem hardReset_draws (s : State) : (hardReset s).draws = s.draws := rfl

@[simp] theorem sendFirst_S (m : HostMove) (s : State) : (sendFirst m s).S = s.S := rfl
@[simp] theorem sendFirst_SI (m : HostMove) (s : State) : (sendFirst m s).SI = s.SI := rfl
@[simp] theorem sendFirst_P (m : HostMove) (s : State) : (sendFirst m s).P = s.P := rfl
@[simp] theorem sendFirst_PI (m : HostMove) (s : State) : (sendFirst m s).PI = s.PI := rfl
@[simp] theorem sendFirst_moves (m : HostMove) (s : State) : (sendFirst m s).moves = m :: s.moves := rfl
@[simp] theorem sendFirst_responses (m : HostMove) (s : State) : (sendFirst m s).responses = s.responses := rfl
@[simp] theorem sendFirst_draws (m : HostMove) (s : State) : (sendFirst m s).draws = s.draws := rfl

end Sys2Proof.Laws
end

