-- ==== Sys2Proof/Laws/Ops.lean ====
section
/-! SUPPORT. Laws/Ops.lean: what each shared operation can do, once: the response, the transform guard, the table writes, and one
inversion lemma for `exec` and one for `step`. -/

namespace Sys2Proof.Laws

open Sys2Proof.Machine

variable {s t : State} {dat : Arg} {e : Status} {vs : List Byte}

/-! Response words (R56). -/

@[simp] theorem statusField_append (st : Byte) (dat : Arg) : statusField (st ++ dat) = st := by
  apply BitVec.eq_of_getLsbD_eq
  intro i hi
  simp only [statusField, BitVec.getLsbD_append, BitVec.getLsbD_extractLsb']
  simp [hi]

@[simp] theorem dataField_append (st : Byte) (dat : Arg) : dataField (st ++ dat) = dat := by
  apply BitVec.eq_of_getLsbD_eq
  intro i hi
  simp only [dataField, BitVec.getLsbD_append, BitVec.getLsbD_extractLsb']
  simp [hi]

/-- `respond` returns one response and changes nothing else. -/
theorem respond_eq_answered (st : Status) (dat : Arg) (s : State) :
    respond st dat s = answered (statusCode st) dat s := rfl

/-! The default tables (R32 to R34). -/

theorem isPerm_sDefault : IsPerm Config.sDefault := by decide

theorem isPerm_pDefault : IsPerm Config.pDefault := by decide

theorem siDefault_eq : Config.siDefault = inverseTable Config.sDefault := by decide

theorem piDefault_eq : Config.piDefault = inverseTable Config.pDefault := by decide

/-- Restoring a default is a whole-table write of it (R88). -/
theorem restoreS_eq_writeS (s : State) : restoreS s = writeS Config.sDefault s := by
  rw [restoreS, writeS, siDefault_eq]

/-- Restoring a default is a whole-table write of it (R106). -/
theorem restoreP_eq_writeP (s : State) : restoreP s = writeP Config.pDefault s := by
  rw [restoreP, writeP, piDefault_eq]

/-! The invariants under the writes (R24 to R27). -/

theorem tablesInv_writeS {tab : Table 4} (hs : TablesInv s) (h : IsPerm tab) : TablesInv (writeS tab s) :=
  ⟨h, rfl, hs.2.2.1, hs.2.2.2⟩

theorem tablesInv_writeP {tab : Table 3} (hs : TablesInv s) (h : IsPerm tab) : TablesInv (writeP tab s) :=
  ⟨hs.1, hs.2.1, h, rfl⟩

theorem tablesInv_hardReset (s : State) : TablesInv (hardReset s) :=
  ⟨isPerm_sDefault, siDefault_eq, isPerm_pDefault, piDefault_eq⟩

/-! The shared operations. -/

/-- A transform answers in every state with the invariants. -/
theorem transform_of_inv (h : TablesInv s) (dat : Arg) : transform dat s = .next (respond .ok dat s) := by
  rw [transform, if_pos h]
  rfl

/-- A transform is refused in every state without them (U3). -/
theorem transform_of_not_inv (h : ¬TablesInv s) (dat : Arg) : transform dat s = .refused .brokenTables := by
  rw [transform, if_neg h]

/-- If a transform answers, it has returned its data and changed nothing else. -/
theorem transform_next (h : transform dat s = .next t) : TablesInv s ∧ t = respond .ok dat s := by
  rw [transform] at h
  split at h
  · exact ⟨‹_›, by simpa [succeed] using h.symm⟩
  · cases h

theorem loadS_of_perm (h : PermSeq 16 vs) : loadS e vs s = .next (respond .ok 0 (writeS (tableOfSlots 4 vs) s)) := by
  rw [loadS, if_pos h]
  rfl

theorem loadS_of_not_perm (h : ¬PermSeq 16 vs) : loadS e vs s = .next (respond e 0 s) := by
  rw [loadS, if_neg h]
  rfl

theorem loadP_of_perm (h : PermSeq 8 vs) : loadP e vs s = .next (respond .ok 0 (writeP (tableOfSlots 3 vs) s)) := by
  rw [loadP, if_pos h]
  rfl

theorem loadP_of_not_perm (h : ¬PermSeq 8 vs) : loadP e vs s = .next (respond e 0 s) := by
  rw [loadP, if_neg h]
  rfl

/-- What a whole-table load of `S` can do: replace the table by a valid candidate, or fail and write nothing (R85, R86). -/
theorem loadS_next (h : loadS e vs s = .next t) :
    (PermSeq 16 vs ∧ t = respond .ok 0 (writeS (tableOfSlots 4 vs) s)) ∨ (¬PermSeq 16 vs ∧ t = respond e 0 s) := by
  by_cases hp : PermSeq 16 vs
  · rw [loadS_of_perm hp] at h
    exact .inl ⟨hp, by simpa using h.symm⟩
  · rw [loadS_of_not_perm hp] at h
    exact .inr ⟨hp, by simpa using h.symm⟩

/-- What a whole-table load of `P` can do (R103, R104). -/
theorem loadP_next (h : loadP e vs s = .next t) :
    (PermSeq 8 vs ∧ t = respond .ok 0 (writeP (tableOfSlots 3 vs) s)) ∨ (¬PermSeq 8 vs ∧ t = respond e 0 s) := by
  by_cases hp : PermSeq 8 vs
  · rw [loadP_of_perm hp] at h
    exact .inl ⟨hp, by simpa using h.symm⟩
  · rw [loadP_of_not_perm hp] at h
    exact .inr ⟨hp, by simpa using h.symm⟩

/-- Everything a command can do, by what it did: it read and answered OK; or it is a load, failed and wrote nothing; or it answered OK and
wrote one whole table that is a permutation, with its inverse, having taken one draw if it is a randomize command and none if not. -/
inductive ExecResult (i : Instr) (s t : State) : Prop where
  | read (dat : Arg) (hi : readsOnly i = true) (ht : t = respond .ok dat s)
  | failed (e : Status) (hi : readsOnly i = false) (hc : commandOf i ∈ [.sets, .lds, .setp, .ldp])
      (he : e = .invalidTable ∨ e = .format) (ht : t = respond e 0 s)
  | wroteS (tab : Table 4) (k : Nat) (hi : readsOnly i = false) (hf : inSubstitutionFamily i = true)
      (hp : IsPerm tab) (hk : k = if i = .rnds then s.draws + 1 else s.draws)
      (ht : t = respond .ok 0 (writeS tab { s with draws := k }))
  | wroteP (tab : Table 3) (k : Nat) (hi : readsOnly i = false) (hf : inPermutationFamily i = true)
      (hp : IsPerm tab) (hk : k = if i = .rndp then s.draws + 1 else s.draws)
      (ht : t = respond .ok 0 (writeP tab { s with draws := k }))

/-- The inversion lemma of `exec`. -/
theorem exec_next {i : Instr} (h : exec i s = .next t) : ExecResult i s t := by
  have ofTransform : ∀ {i dat}, readsOnly i = true → transform dat s = .next t → ExecResult i s t :=
    fun hi ht => .read _ hi (transform_next ht).2
  cases i with
  | subn n => exact ofTransform rfl h
  | isubn n => exact ofTransform rfl h
  | sub b => exact ofTransform rfl h
  | isub b => exact ofTransform rfl h
  | sets vs =>
    rcases loadS_next h with ⟨hp, ht⟩ | ⟨_, ht⟩
    · exact .wroteS _ _ rfl rfl (isPerm_tableOfSlots (w := 4) (by decide) hp) rfl ht
    · exact .failed _ rfl (by simp [commandOf]) (.inl rfl) ht
  | rnds =>
    cases h
    exact .wroteS _ (s.draws + 1) rfl rfl (isPerm_tableOfDraw _) rfl rfl
  | rsts =>
    cases h
    exact .wroteS _ s.draws rfl rfl isPerm_sDefault rfl (by rw [restoreS_eq_writeS])
  | rds =>
    cases h
    exact .read _ rfl rfl
  | lds vs =>
    rcases loadS_next h with ⟨hp, ht⟩ | ⟨_, ht⟩
    · exact .wroteS _ _ rfl rfl (isPerm_tableOfSlots (w := 4) (by decide) hp) rfl ht
    · exact .failed _ rfl (by simp [commandOf]) (.inr rfl) ht
  | perm b => exact ofTransform rfl h
  | iperm b => exact ofTransform rfl h
  | setp qs =>
    rcases loadP_next h with ⟨hp, ht⟩ | ⟨_, ht⟩
    · exact .wroteP _ _ rfl rfl (isPerm_tableOfSlots (w := 3) (by decide) hp) rfl ht
    · exact .failed _ rfl (by simp [commandOf]) (.inl rfl) ht
  | rndp =>
    cases h
    exact .wroteP _ (s.draws + 1) rfl rfl (isPerm_tableOfDraw _) rfl rfl
  | rstp =>
    cases h
    exact .wroteP _ s.draws rfl rfl isPerm_pDefault rfl (by rw [restoreP_eq_writeP])
  | rdp =>
    cases h
    exact .read _ rfl rfl
  | ldp qs =>
    rcases loadP_next h with ⟨hp, ht⟩ | ⟨_, ht⟩
    · exact .wroteP _ _ rfl rfl (isPerm_tableOfSlots (w := 3) (by decide) hp) rfl ht
    · exact .failed _ rfl (by simp [commandOf]) (.inr rfl) ht
  | enc b => exact ofTransform rfl h
  | dec b => exact ofTransform rfl h

/-- In a state with the invariants every command answers. -/
theorem exec_answers (hs : TablesInv s) (i : Instr) : ∃ t, exec i s = .next t := by
  have ofTransform : ∀ dat, ∃ t, transform dat s = .next t := fun dat => ⟨_, transform_of_inv hs dat⟩
  have ofLoadS : ∀ e vs, ∃ t, loadS e vs s = .next t := fun e vs =>
    (em (PermSeq 16 vs)).elim (fun h => ⟨_, loadS_of_perm h⟩) fun h => ⟨_, loadS_of_not_perm h⟩
  have ofLoadP : ∀ e vs, ∃ t, loadP e vs s = .next t := fun e vs =>
    (em (PermSeq 8 vs)).elim (fun h => ⟨_, loadP_of_perm h⟩) fun h => ⟨_, loadP_of_not_perm h⟩
  cases i with
  | subn n => exact ofTransform _
  | isubn n => exact ofTransform _
  | sub b => exact ofTransform _
  | isub b => exact ofTransform _
  | sets vs => exact ofLoadS _ _
  | rnds => exact ⟨_, rfl⟩
  | rsts => exact ⟨_, rfl⟩
  | rds => exact ⟨_, rfl⟩
  | lds vs => exact ofLoadS _ _
  | perm b => exact ofTransform _
  | iperm b => exact ofTransform _
  | setp qs => exact ofLoadP _ _
  | rndp => exact ⟨_, rfl⟩
  | rstp => exact ⟨_, rfl⟩
  | rdp => exact ⟨_, rfl⟩
  | ldp qs => exact ofLoadP _ _
  | enc b => exact ofTransform _
  | dec b => exact ofTransform _

/-! One step, by what the host's next move is. -/

theorem step_of_idle (h : s.moves = []) : step s = .next s := by
  simp [step, takeMove, h]

theorem step_of_command {cw : CommandWord} {rest : List HostMove} (h : s.moves = .command cw :: rest) :
    step s = runWord cw { s with moves := rest } := by
  simp [step, takeMove, h, performMove]

theorem step_of_reset {c : Option CommandWord} {rest : List HostMove} (h : s.moves = .reset c :: rest) :
    step s = .next (hardReset { s with moves := rest }) := by
  simp [step, takeMove, h, performMove]

theorem runWord_of_ok {cw : CommandWord} {i : Instr} (h : decode cw = .ok i) (s : State) : runWord cw s = exec i s := by
  simp [runWord, h]

theorem runWord_of_error {cw : CommandWord} {e : DecodeError} (h : decode cw = .error e) (s : State) :
    runWord cw s = .next (respond .illegalCommand 0 s) := by
  simp [runWord, h, raiseError]

end Sys2Proof.Laws
end

