-- ==== Sys2Proof/Laws/Run.lean ====
section
/-! SUPPORT. Laws/Run.lean: a run of the machine behind the host's interface, one step at a time. -/

namespace Sys2Proof.Laws

/-- A run of no steps is where it starts. -/
theorem run_zero (M : Host.Core) (s : M.State) : M.run 0 s = .next s := rfl

/-- A run whose first step answers goes on from there. -/
theorem run_succ (M : Host.Core) (k : Nat) {s t : M.State} (h : M.step s = .next t) : M.run (k + 1) s = M.run k t := by
  simp [Host.Core.run, h]

/-- The same of the CORE, in the names of the model. -/
theorem run_core_succ (k : Nat) {s t : Machine.State} (h : Machine.step s = .next t) :
    Host.Core.run Sys2Proof.core (k + 1) s = Host.Core.run Sys2Proof.core k t :=
  run_succ Sys2Proof.core k (s := s) (t := t) h

end Sys2Proof.Laws
end

