-- ==== Sys2Proof/Laws/Shell.lean ====
section
/-! SUPPORT. Laws/Shell.lean: when the record of a file fills the slots of a command word (R139). -/

namespace Sys2Proof.Laws

open Sys2Proof.Machine

/-- A value fills no slot just if it is no integer, below 0 or above 255. -/
theorem slotOfValue_eq_none_iff (o : Option Int) :
    slotOfValue o = none ↔ o = none ∨ ∃ v : Int, o = some v ∧ (v < 0 ∨ 255 < v) := by
  cases o with
  | none => simp [slotOfValue]
  | some v =>
    simp only [slotOfValue, ite_eq_right_iff, reduceCtorEq, imp_false, Option.some.injEq, exists_eq_left', false_or]
    omega

/-- A byte, as an integer, fills a slot with itself. -/
@[simp] theorem slotOfValue_byte (b : Byte) : slotOfValue (some (Int.ofNat b.toNat)) = some b := by
  have h : 0 ≤ Int.ofNat b.toNat ∧ Int.ofNat b.toNat ≤ 255 := by
    constructor <;> simp only [Int.ofNat_eq_natCast] <;> omega
  rw [slotOfValue, if_pos h, show BitVec.ofInt 8 (Int.ofNat b.toNat) = BitVec.ofNat 8 b.toNat from BitVec.ofInt_natCast 8 _,
    BitVec.ofNat_toNat, BitVec.setWidth_eq]

/-- The sixteen keys are distinct. -/
theorem nodup_recordKeys : ((List.range 16).map recordKey).Nodup := by decide

/-- With distinct keys, looking a key up finds the one entry under it. -/
theorem lookup_of_nodup_keys {α β : Type} [BEq α] [LawfulBEq α] :
    ∀ {l : List (α × β)} {e : α × β}, (l.map Prod.fst).Nodup → e ∈ l → l.lookup e.1 = some e.2
  | (k, v) :: l, e, hn, he => by
    obtain ⟨hk, hn⟩ := List.nodup_cons.mp hn
    rcases List.mem_cons.mp he with rfl | he
    · simp [List.lookup]
    · have hne : e.1 ≠ k := fun h => hk (List.mem_map.mpr ⟨e, he, h⟩)
      rw [List.lookup, beq_false_of_ne hne]
      exact lookup_of_nodup_keys hn he

/-- A key that is found is the key of an entry. -/
theorem mem_keys_of_lookup {α β : Type} [BEq α] [LawfulBEq α] :
    ∀ {l : List (α × β)} {k : α} {v : β}, l.lookup k = some v → k ∈ l.map Prod.fst
  | (k', v') :: l, k, v, h => by
    rw [List.lookup] at h
    split at h
    · next hb => simp [eq_of_beq hb]
    · exact List.mem_cons_of_mem _ (mem_keys_of_lookup h)

/-- `mapM` to `Option` fails just if it fails somewhere. -/
theorem mapM_eq_none_iff {α β : Type} (f : α → Option β) : ∀ l : List α, l.mapM f = none ↔ ∃ a ∈ l, f a = none
  | [] => by simp
  | a :: l => by
    rw [List.mapM_cons]
    cases hf : f a with
    | none => simp [hf]
    | some b =>
      simp only [List.mem_cons, exists_eq_or_imp, hf, reduceCtorEq, false_or, ← mapM_eq_none_iff f l]
      cases l.mapM f <;> simp

/-- `mapM` looks at its function on the list only. -/
theorem mapM_congr {α β : Type} {f g : α → Option β} : ∀ {l : List α}, (∀ a ∈ l, f a = g a) → l.mapM f = l.mapM g
  | [], _ => rfl
  | a :: l, h => by
    rw [List.mapM_cons, List.mapM_cons, h a (List.mem_cons_self ..), mapM_congr fun b hb => h b (List.mem_cons_of_mem _ hb)]

/-- What a substitution record that fills its slots holds: sixteen entries, under exactly the sixteen keys, each with a value that
fills a slot. -/
theorem slotsOfConstants_ne_none {entries : List (List Char × Option Int)} (h : slotsOfConstants entries ≠ none) :
    entries.length = 16 ∧ (entries.map Prod.fst).Perm ((List.range 16).map recordKey) ∧
    ∀ e ∈ entries, slotOfValue e.2 ≠ none := by
  rw [slotsOfConstants] at h
  split at h
  · next hlen =>
    have hall : ∀ i < 16, (entries.lookup (recordKey i)).bind slotOfValue ≠ none := by
      intro i hi hn
      exact h ((mapM_eq_none_iff _ _).mpr ⟨i, List.mem_range.mpr hi, hn⟩)
    have hsub : (List.range 16).map recordKey ⊆ entries.map Prod.fst := by
      intro k hk
      obtain ⟨i, hi, rfl⟩ := List.mem_map.mp hk
      cases hl : entries.lookup (recordKey i) with
      | none => exact absurd (by rw [hl]; rfl) (hall i (List.mem_range.mp hi))
      | some v => exact mem_keys_of_lookup hl
    have hperm := (nodup_recordKeys.subperm hsub).perm_of_length_le (by simp [hlen])
    refine ⟨hlen, hperm.symm, fun e he hn => ?_⟩
    obtain ⟨i, hi, hk⟩ := List.mem_map.mp (hperm.mem_iff.mpr (List.mem_map_of_mem he))
    refine hall i (List.mem_range.mp hi) ?_
    rw [hk, lookup_of_nodup_keys (hperm.nodup_iff.mp nodup_recordKeys) he]
    exact hn
  · exact absurd rfl h

/-- A permutation record fails to fill its slots just if it has not eight elements or one of them fills no slot. -/
theorem slotsOfPermutation_eq_none_iff (elements : List (Option Int)) :
    slotsOfPermutation elements = none ↔ elements.length ≠ 8 ∨ ∃ o ∈ elements, slotOfValue o = none := by
  rw [slotsOfPermutation]
  split
  · next h => simp [h, mapM_eq_none_iff]
  · next h => simp [h]

/-- A substitution record with the sixteen keys, in any order, fills the slots with their values. -/
theorem slotsOfConstants_of_perm {entries : List (List Char × Option Int)} (f : Nat → Option Int)
    (h : entries.Perm ((List.range 16).map fun i => (recordKey i, f i))) :
    slotsOfConstants entries = (List.range 16).mapM fun i => slotOfValue (f i) := by
  have hk : (entries.map Prod.fst).Nodup :=
    (h.map Prod.fst).nodup_iff.mpr (by simpa [List.map_map, Function.comp_def] using nodup_recordKeys)
  rw [slotsOfConstants, if_pos (by simpa using h.length_eq)]
  refine mapM_congr fun i hi => ?_
  rw [lookup_of_nodup_keys (e := (recordKey i, f i)) hk (h.mem_iff.mpr (List.mem_map.mpr ⟨i, hi, rfl⟩))]
  rfl

end Sys2Proof.Laws
end

