-- ==== Sys2Proof/Tests/Slice0.lean ====
section
/-! SUPPORT. Tests/Slice0.lean: tests against the spec's own vectors (95_test_vectors) and, for every statement with hypotheses, a
witness that meets them together. -/

namespace Sys2Proof.Tests

open Sys2Proof.Machine

/-! ## Well-formedness: an ill-formed term for each check -/

theorem test_wf_refuses_short_sets : (Instr.sets [0, 1, 2]).wf = false := by decide

theorem test_wf_refuses_long_lds : (Instr.lds (List.replicate 17 0)).wf = false := by decide

theorem test_wf_refuses_empty_setp : (Instr.setp []).wf = false := by decide

theorem test_wf_refuses_long_ldp : (Instr.ldp (List.replicate 9 0)).wf = false := by decide

/-! ## Decoding and encoding: every command's word, from T9 -/

theorem test_word_subn : decode 0x1000000000000000000000000000000000 = .ok (.subn 0x0) ∧
    encode (.subn 0x0) = 0x1000000000000000000000000000000000 := by decide

theorem test_word_isubn : decode 0x1100000000000000000000000000000001 = .ok (.isubn 0x1) ∧
    encode (.isubn 0x1) = 0x1100000000000000000000000000000001 := by decide

theorem test_word_sub : decode 0x12000000000000000000000000000000A7 = .ok (.sub 0xA7) ∧
    encode (.sub 0xA7) = 0x12000000000000000000000000000000A7 := by decide

theorem test_word_isub : decode 0x13000000000000000000000000000000B6 = .ok (.isub 0xB6) ∧
    encode (.isub 0xB6) = 0x13000000000000000000000000000000B6 := by decide

theorem test_word_sets : decode 0x14070009050C060A03080B0F02010D040E = .ok (.sets [14, 4, 13, 1, 2, 15, 11, 8, 3, 10, 6, 12, 5, 9, 0, 7]) ∧
    encode (.sets [14, 4, 13, 1, 2, 15, 11, 8, 3, 10, 6, 12, 5, 9, 0, 7]) = 0x14070009050C060A03080B0F02010D040E := by decide

theorem test_word_rnds : decode 0x1500000000000000000000000000000000 = .ok .rnds ∧
    encode .rnds = 0x1500000000000000000000000000000000 := by decide

theorem test_word_rsts : decode 0x1600000000000000000000000000000000 = .ok .rsts ∧
    encode .rsts = 0x1600000000000000000000000000000000 := by decide

theorem test_word_rds : decode 0x1700000000000000000000000000000000 = .ok .rds ∧
    encode .rds = 0x1700000000000000000000000000000000 := by decide

theorem test_word_lds : decode 0x18070009050C060A03080B0F02010D040E = .ok (.lds [14, 4, 13, 1, 2, 15, 11, 8, 3, 10, 6, 12, 5, 9, 0, 7]) ∧
    encode (.lds [14, 4, 13, 1, 2, 15, 11, 8, 3, 10, 6, 12, 5, 9, 0, 7]) = 0x18070009050C060A03080B0F02010D040E := by decide

theorem test_word_perm : decode 0x2200000000000000000000000000000011 = .ok (.perm 0x11) ∧
    encode (.perm 0x11) = 0x2200000000000000000000000000000011 := by decide

theorem test_word_iperm : decode 0x230000000000000000000000000000000A = .ok (.iperm 0x0A) ∧
    encode (.iperm 0x0A) = 0x230000000000000000000000000000000A := by decide

theorem test_word_setp : decode 0x2400000000000000000507040601030002 = .ok (.setp [2, 0, 3, 1, 6, 4, 7, 5]) ∧
    encode (.setp [2, 0, 3, 1, 6, 4, 7, 5]) = 0x2400000000000000000507040601030002 := by decide

theorem test_word_rndp : decode 0x2500000000000000000000000000000000 = .ok .rndp ∧
    encode .rndp = 0x2500000000000000000000000000000000 := by decide

theorem test_word_rstp : decode 0x2600000000000000000000000000000000 = .ok .rstp ∧
    encode .rstp = 0x2600000000000000000000000000000000 := by decide

theorem test_word_rdp : decode 0x2700000000000000000000000000000000 = .ok .rdp ∧
    encode .rdp = 0x2700000000000000000000000000000000 := by decide

theorem test_word_ldp : decode 0x2800000000000000000507040601030002 = .ok (.ldp [2, 0, 3, 1, 6, 4, 7, 5]) ∧
    encode (.ldp [2, 0, 3, 1, 6, 4, 7, 5]) = 0x2800000000000000000507040601030002 := by decide

theorem test_word_enc : decode 0x3000000000000000000000000000000000 = .ok (.enc 0x00) ∧
    encode (.enc 0x00) = 0x3000000000000000000000000000000000 := by decide

theorem test_word_dec : decode 0x310000000000000000000000000000000A = .ok (.dec 0x0A) ∧
    encode (.dec 0x0A) = 0x310000000000000000000000000000000A := by decide

/-- T10: words with an undefined opcode. -/
theorem test_undefined_opcode_words : ([0x0000000000000000000000000000000000, 0xFFFFFFFFFFFFFFFFFFFFFFFFFFFFFFFFFF,
    0x1900000000000000000000000000000000, 0x2000000000000000000000000000000005, 0x2100000000000000000000000000000005,
    0x2900000000000000000000000000000000, 0x3200000000000000000000000000000000] : List CommandWord).all
      (fun cw => (decode cw).toOption.isNone) = true := by decide

/-- T10: words with a reserved bit set. -/
theorem test_reserved_bit_words : ([0x1000000000000000000000000000000010, 0x11000000000000000000000000000000FF,
    0x1200000000000000000000000000000100, 0x3080000000000000000000000000000000, 0x310000000000000001000000000000000A,
    0x1600000000000000000000000000000001, 0x1700000010000000000000000000000000, 0x15000000000000000000000000000000FF,
    0x2400000000000000010507040601030002, 0x28AB000000000000000706050403020101] : List CommandWord).all
      (fun cw => (decode cw).toOption.isNone) = true := by decide

/-- The masks of R59's table, format by format. -/
theorem test_masks : maskOf .subn = 0xFFFFFFFFFFFFFFFFFFFFFFFFFFFFFFFFF0 ∧ maskOf .enc = 0xFFFFFFFFFFFFFFFFFFFFFFFFFFFFFFFF00 ∧
    maskOf .rds = 0xFFFFFFFFFFFFFFFFFFFFFFFFFFFFFFFFFF ∧ maskOf .lds = 0xFF00000000000000000000000000000000 ∧
    maskOf .setp = 0xFFFFFFFFFFFFFFFFFF0000000000000000 ∧ matchOf .setp = 0x2400000000000000000000000000000000 := by decide

/-- R59, R62: the 18 opcodes and no other. -/
theorem test_opcodes : ∀ op : Byte, (commandOfOpcode op).isSome = true ↔
    op ∈ [0x10#8, 0x11, 0x12, 0x13, 0x14, 0x15, 0x16, 0x17, 0x18, 0x22, 0x23, 0x24, 0x25, 0x26, 0x27, 0x28, 0x30, 0x31] := by
  decide +kernel

/-- R65: an alias has the same word as its command. -/
theorem test_alias_words : encode (expandAlias (.encrypt 0xA7)) = 0x30000000000000000000000000000000A7 ∧
    encode (expandAlias .rstPerm) = 0x2600000000000000000000000000000000 := by decide

/-- R64, T11: the assembler's word of a list, and its refusal of a literal that does not fit. -/
theorem test_assemble : assemble .setp [2, 0, 3, 1, 6, 4, 7, 5] = some 0x2400000000000000000507040601030002 ∧
    assemble .subn [16] = none ∧ assemble .lds [0, 1] = none := by decide

/-! ## One step on a small state -/

/-- The state with the test tables `S2`, `P2` of T6. -/
def testState : State where
  S := #v[0xE, 0x4, 0xD, 0x1, 0x2, 0xF, 0xB, 0x8, 0x3, 0xA, 0x6, 0xC, 0x5, 0x9, 0x0, 0x7]
  SI := #v[0xE, 0x3, 0x4, 0x8, 0x1, 0xC, 0xA, 0xF, 0x7, 0xD, 0x9, 0x6, 0xB, 0x2, 0x0, 0x5]
  P := #v[2, 0, 3, 1, 6, 4, 7, 5]
  PI := #v[1, 3, 0, 2, 5, 7, 4, 6]
  moves := []
  responses := []
  draws := 0

/-- A state that breaks INV_SI: the inverse is stale. -/
def staleState : State := { testState with SI := Config.siDefault }

/-- The responses after one step that takes the word `cw` as its command. -/
def answersTo (cw : Nat) (s : State) : Option (List ResponseWord) :=
  match step (s.withFetchWord 136 cw) with
  | .next t => some t.responses
  | .fault _ => none
  | .refused _ => none

/-- What a reader of the tables finds after one step that takes the word `cw` as its command. -/
def after {α : Type} (f : State → α) (cw : Nat) (s : State) : Option α :=
  match step (s.withFetchWord 136 cw) with
  | .next t => some (f t)
  | .fault _ => none
  | .refused _ => none

/-- T9 and R80. -/
theorem test_step_subn : answersTo 0x1000000000000000000000000000000000 State.reset = some [0x0000000000000000000000000000000001] ∧
    answersTo 0x100000000000000000000000000000000A testState = some [0x6] := by decide

/-- T9 and R81. -/
theorem test_step_isubn : answersTo 0x1100000000000000000000000000000001 State.reset = some [0x0000000000000000000000000000000000] ∧
    answersTo 0x1100000000000000000000000000000006 testState = some [0xA] := by decide

/-- T9 and T6. -/
theorem test_step_sub : answersTo 0x12000000000000000000000000000000A7 State.reset = some [0x00000000000000000000000000000000B6] ∧
    answersTo 0x12000000000000000000000000000000A7 testState = some [0x68] := by decide

/-- T9 and T6. -/
theorem test_step_isub : answersTo 0x13000000000000000000000000000000B6 State.reset = some [0x00000000000000000000000000000000A7] ∧
    answersTo 0x13000000000000000000000000000000A7 testState = some [0x9F] := by decide

/-- T9 and T6. -/
theorem test_step_perm : answersTo 0x2200000000000000000000000000000011 State.reset = some [0x000000000000000000000000000000000A] ∧
    answersTo 0x22000000000000000000000000000000A7 testState = some [0x3D] := by decide

/-- T9 and T6. -/
theorem test_step_iperm : answersTo 0x230000000000000000000000000000000A State.reset = some [0x0000000000000000000000000000000011] ∧
    answersTo 0x23000000000000000000000000000000A7 testState = some [0xCB] := by decide

/-- T9 and T6. -/
theorem test_step_enc : answersTo 0x3000000000000000000000000000000000 State.reset = some [0x000000000000000000000000000000000A] ∧
    answersTo 0x30000000000000000000000000000000A7 testState = some [0x92] := by decide

/-- T9 and T6. -/
theorem test_step_dec : answersTo 0x310000000000000000000000000000000A State.reset = some [0x0000000000000000000000000000000000] ∧
    answersTo 0x31000000000000000000000000000000A7 testState = some [0xB6] := by decide

/-- T9. -/
theorem test_step_rds : answersTo 0x1700000000000000000000000000000000 State.reset = some [0x000E0F0C0D0A0B08090607040502030001] := by decide

/-- T9. -/
theorem test_step_rdp : answersTo 0x2700000000000000000000000000000000 State.reset = some [0x0000000000000000000604070300020501] := by decide

/-- T6: the inverse of the loaded table. -/
theorem test_step_sets : after State.SI 0x14070009050C060A03080B0F02010D040E State.reset = some testState.SI := by decide

/-- T11: slot 0 holds 0x10, which is not truncated to 0. -/
theorem test_step_sets_out_of_range :
    answersTo 0x140F0E0D0C0B0A09080706050403020110 State.reset = some [0x0100000000000000000000000000000000] ∧
    after State.S 0x140F0E0D0C0B0A09080706050403020110 State.reset = some State.reset.S := by decide

/-- T9. -/
theorem test_step_lds : after State.S 0x18070009050C060A03080B0F02010D040E State.reset = some testState.S := by decide

/-- T11: duplicate 0, through `LDS`. -/
theorem test_step_lds_duplicate :
    answersTo 0x180F0E0D0C0B0A09080706050403020000 State.reset = some [0x0200000000000000000000000000000000] := by decide

/-- T6: the inverse of the loaded table. -/
theorem test_step_setp : after State.PI 0x2400000000000000000507040601030002 State.reset = some testState.PI := by decide

/-- T11: duplicate 1. -/
theorem test_step_setp_duplicate :
    answersTo 0x2400000000000000000706050403020101 State.reset = some [0x0100000000000000000000000000000000] := by decide

/-- T9. -/
theorem test_step_ldp : after State.P 0x2800000000000000000507040601030002 State.reset = some testState.P := by decide

/-- T11: slot 7 holds 8. -/
theorem test_step_ldp_out_of_range :
    answersTo 0x2800000000000000000806050403020100 State.reset = some [0x0200000000000000000000000000000000] := by decide

/-- R88: `RSTS` restores `S` and leaves `P`. -/
theorem test_step_rsts : after (fun t => (t.S, t.SI, t.P)) 0x1600000000000000000000000000000000 testState =
    some (State.reset.S, State.reset.SI, testState.P) := by decide

/-- R106: `RSTP` restores `P` and leaves `S`. -/
theorem test_step_rstp : after (fun t => (t.P, t.PI, t.S)) 0x2600000000000000000000000000000000 testState =
    some (State.reset.P, State.reset.PI, testState.S) := by decide

/-- R87: `RNDS` always succeeds and leaves `P`; which table it installs is a free value. -/
theorem test_step_rnds : answersTo 0x1500000000000000000000000000000000 testState = some [0] ∧
    after State.P 0x1500000000000000000000000000000000 testState = some testState.P := by decide

/-- R105: `RNDP` always succeeds and leaves `S`; which table it installs is a free value. -/
theorem test_step_rndp : answersTo 0x2500000000000000000000000000000000 testState = some [0] ∧
    after State.S 0x2500000000000000000000000000000000 testState = some testState.S := by decide

/-- T10: `RNDS` with a nonzero operand is illegal and takes no draw. -/
theorem test_step_illegal : answersTo 0x15000000000000000000000000000000FF testState =
    some [0x0400000000000000000000000000000000] ∧
    after (fun t => (t.S, t.draws)) 0x15000000000000000000000000000000FF testState = some (testState.S, 0) := by decide

/-- R177: a command cut short by reset has no response and no effect. -/
theorem test_step_reset_abandons :
    (match step (sendFirst (.reset (some 0x14070009050C060A03080B0F02010D040E)) testState) with
      | .next t => some (t.S, t.responses)
      | .fault _ => none
      | .refused _ => none) = some (State.reset.S, []) := by decide

/-- R135, R139, SRC9: the default substitution record and the command that loads it. -/
theorem test_host_load_default : (loadCommandS ['t', '.', 'j', 's', 'o', 'n'] (some (savedRecordS
    0x000E0F0C0D0A0B08090607040502030001))).toOption = some 0x180E0F0C0D0A0B08090607040502030001 := by decide

/-- R139: a value above 255 cannot be put into a command word; the host reports it. -/
theorem test_host_load_too_large : (loadCommandP ['t', '.', 'j', 's', 'o', 'n']
    (some (.permutation [some 256, some 1, some 2, some 3, some 4, some 5, some 6, some 7]))).toOption = none := by decide

/-! ## Witnesses: the hypotheses of each statement, met together -/

/-- The state with the test tables whose next move is `m`. -/
def nextMove (m : HostMove) : State := { testState with moves := [m] }

theorem witness_tables_invariant : TablesInv State.reset ∧ TablesInv testState := by decide

/-- For the statements about a first command word of its own: HardwareResetReplacesTables. -/
theorem witness_HardwareResetReplacesTables :
    (nextMove (.reset (some 0x14070009050C060A03080B0F02010D040E))).moves = .reset (some 0x14070009050C060A03080B0F02010D040E) :: [] ∧
    (nextMove (.reset none)).moves = .reset none :: [] := by decide

theorem witness_EveryStepKeepsTableInvariant :
    TablesInv (nextMove (.command 0x14070009050C060A03080B0F02010D040E)) ∧ ∃ t, step (nextMove (.command 0x14070009050C060A03080B0F02010D040E)) = .next t :=
  ⟨by decide, _, rfl⟩

theorem witness_InverseTableIsTheTwoSidedInverse : IsPerm testState.S ∧ testState.SI = inverseTable testState.S := by decide

theorem witness_DecodeOfEncodeIsIdentity : (Instr.ldp [2, 0, 3, 1, 6, 4, 7, 5]).wf = true := by decide

theorem witness_EncodeOfDecodeIsIdentity : decode 0x310000000000000000000000000000000A = .ok (.dec 0x0A) := by decide

/-- A word of a row, and a word of no row. -/
theorem witness_WordsSelectTheirTableRow :
    (nextMove (.command 0x2400000000000000000507040601030002)).moves = [.command 0x2400000000000000000507040601030002] ∧
    (0x2400000000000000000507040601030002 : CommandWord) &&& maskOf .setp = matchOf .setp ∧
    ∀ c ∈ allCommands, (0x2400000000000000010507040601030002 : CommandWord) &&& maskOf c ≠ matchOf c := by decide

theorem witness_StepRunsDecodedCommand :
    (nextMove (.command 0x3000000000000000000000000000000000)).moves = [.command 0x3000000000000000000000000000000000] ∧ decode 0x3000000000000000000000000000000000 = .ok (.enc 0) := by
  decide

/-- The ends of each range of undefined opcodes; their neighbours inside are opcodes. -/
theorem witness_UndefinedOpcodesAreIllegal :
    (∀ op ∈ [0x00, 0x0F, 0x19, 0x21, 0x29, 0x2F, 0x32, 0xFF],
      ((BitVec.ofNat 8 op ++ (5 : Arg) : CommandWord).extractLsb' 128 8).toNat = op ∧
      (op ≤ 0x0F ∨ (0x19 ≤ op ∧ op ≤ 0x21) ∨ (0x29 ≤ op ∧ op ≤ 0x2F) ∨ 0x32 ≤ op)) ∧
    ∀ op ∈ [0x10, 0x18, 0x22, 0x28, 0x30, 0x31], (commandOfOpcode (BitVec.ofNat 8 op)).isSome = true := by decide

/-- The lowest and the highest reserved bit of each format. -/
theorem witness_ReservedBitsAreIllegal :
    ∀ p ∈ [(0x10#8, 4), (0x11, 127), (0x12, 8), (0x31, 127), (0x15, 0), (0x27, 127), (0x24, 64), (0x28, 127)],
      (p.1 ++ (1#128 <<< p.2) : CommandWord).extractLsb' 128 8 = p.1 ∧ p.2 < 128 ∧
      (p.1 ++ (1#128 <<< p.2) : CommandWord).getLsbD p.2 = true ∧
      ((p.1 ∈ [0x10#8, 0x11] ∧ 4 ≤ p.2) ∨ (p.1 ∈ [0x12#8, 0x13, 0x22, 0x23, 0x30, 0x31] ∧ 8 ≤ p.2) ∨
        p.1 ∈ [0x15#8, 0x16, 0x17, 0x25, 0x26, 0x27] ∨ (p.1 ∈ [0x24#8, 0x28] ∧ 64 ≤ p.2)) := by decide

theorem witness_StatusFollowsCheckOrder :
    TablesInv (nextMove (.command (0x28#8 ++ (0xAB000000000000000706050403020101 : Arg)))) ∧
    (nextMove (.command (0x28#8 ++ (0xAB000000000000000706050403020101 : Arg)))).moves =
      [.command (0x28#8 ++ (0xAB000000000000000706050403020101 : Arg))] := by decide

/-- A literal list that fits and one that does not, for each format at its boundary. -/
theorem witness_AssembledWordsAreCommands :
    literalsFit .n [15] = true ∧ literalsFit .n [16] = false ∧ literalsFit .b [255] = true ∧ literalsFit .b [256] = false ∧
    literalsFit .z [] = true ∧ literalsFit .z [0] = false ∧ literalsFit .t16 (List.replicate 16 255) = true ∧
    literalsFit .t16 (List.replicate 15 0) = false ∧ literalsFit .t8 (List.replicate 8 255) = true ∧
    literalsFit .t8 (List.replicate 9 0) = false := by decide

/-- A valid candidate; a duplicate; a member at the first value out of range; a list that is too short (SETS, LDS). -/
theorem witness_SubstitutionCandidates :
    PermSeq 16 [14, 4, 13, 1, 2, 15, 11, 8, 3, 10, 6, 12, 5, 9, 0, 7] ∧
    ¬PermSeq 16 [0, 0, 2, 3, 4, 5, 6, 7, 8, 9, 10, 11, 12, 13, 14, 15] ∧
    ¬PermSeq 16 [16, 1, 2, 3, 4, 5, 6, 7, 8, 9, 10, 11, 12, 13, 14, 15] ∧
    ¬PermSeq 16 [0, 1, 2, 3, 4, 5, 6, 7, 8, 9, 10, 11, 12, 13, 14] := by decide

/-- The same for SETP and LDP. -/
theorem witness_PermutationCandidates :
    PermSeq 8 [2, 0, 3, 1, 6, 4, 7, 5] ∧ ¬PermSeq 8 [1, 1, 2, 3, 4, 5, 6, 7] ∧ ¬PermSeq 8 [0, 1, 2, 3, 4, 5, 6, 8] ∧
    ¬PermSeq 8 [0, 1, 2, 3, 4, 5, 6] := by decide

/-- IsubnReturnsInverseEntry and the two statements about the default tables: reset holds them. -/
theorem witness_DefaultTables : TablesInv State.reset ∧ State.reset.S = Config.sDefault ∧
    State.reset.S = #v[1, 0, 3, 2, 5, 4, 7, 6, 9, 8, 11, 10, 13, 12, 15, 14] ∧
    State.reset.P = #v[1, 5, 2, 0, 3, 7, 4, 6] := by decide

/-- RndsInstallsSomePermutation and RndpInstallsSomePermutation: two states with other tables and the same draw to come. -/
theorem witness_DrawsAgree : State.reset.draws = testState.draws ∧ State.reset.S ≠ testState.S := by decide

/-- SubnReturnsEntry's second clause, and the equal answers of SubstitutionsUndoEachOther and PermutationsUndoEachOther. -/
theorem witness_EqualEntries : lookup testState.S 3 = lookup testState.S 3 ∧
    exec (.subn 3) testState = exec (.subn 3) testState ∧ exec (.perm 3) testState = exec (.perm 3) testState :=
  ⟨rfl, rfl, rfl⟩

theorem witness_SubstitutionFamilyFrame :
    inSubstitutionFamily .rsts = true ∧ (∃ t, exec .rsts testState = .next t) ∧
    inSubstitutionFamily .rnds = true ∧ ∃ t, exec .rnds testState = .next t := ⟨rfl, ⟨_, rfl⟩, rfl, _, rfl⟩

theorem witness_PermutationFamilyFrame :
    inPermutationFamily .rstp = true ∧ (∃ t, exec .rstp testState = .next t) ∧
    inPermutationFamily .rndp = true ∧ ∃ t, exec .rndp testState = .next t := ⟨rfl, ⟨_, rfl⟩, rfl, _, rfl⟩

theorem witness_FamiliesIgnoreTheOtherTables :
    TablesInv testState ∧ TablesInv { testState with P := Config.pDefault, PI := Config.piDefault } ∧
    TablesInv { testState with S := Config.sDefault, SI := Config.siDefault } ∧
    inSubstitutionFamily .rnds = true ∧ inPermutationFamily .rndp = true ∧
    (∃ t, exec .rnds testState = .next t) ∧ ∃ t, exec .rndp testState = .next t :=
  ⟨by decide, by decide, by decide, rfl, rfl, ⟨_, rfl⟩, _, rfl⟩

theorem witness_RepeatedCommandsAreIdempotent :
    readsOnly .rds = true ∧ (∃ t, exec .rds testState = .next t) ∧
    readsOnly .rstp = false ∧ Instr.rstp ≠ .rnds ∧ Instr.rstp ≠ .rndp ∧ ∃ t, exec .rstp testState = .next t :=
  ⟨rfl, ⟨_, rfl⟩, rfl, by decide, by decide, _, rfl⟩

/-- TablesWrittenOnlyByTheirCommands: steps that change `S` and steps that change `P`. -/
theorem witness_TablesWrittenOnlyByTheirCommands :
    (∃ t, step (nextMove (.command 0x1600000000000000000000000000000000)) = .next t ∧ t.S ≠ testState.S) ∧
    ∃ t, step (nextMove (.command 0x2600000000000000000000000000000000)) = .next t ∧ t.P ≠ testState.P :=
  ⟨⟨_, rfl, by decide⟩, _, rfl, by decide⟩

theorem witness_OnlyResetChangesBothTables :
    ∃ t, step (nextMove (.reset none)) = .next t ∧ t.S ≠ testState.S ∧ t.P ≠ testState.P :=
  ⟨_, rfl, by decide, by decide⟩

/-- FailuresChangeNothing: a word that is no command. -/
theorem witness_FailuresChangeNothing :
    ∃ t, step (nextMove (.command 0)) = .next t ∧ t.responses = testState.responses ++ [0x04#8 ++ (0 : Arg)] :=
  ⟨_, rfl, by decide⟩

theorem witness_ProgramsRunToTheirEnd :
    ({ testState with moves := [.command 0x3000000000000000000000000000000000, .reset none] } : State).moves =
      [0x3000000000000000000000000000000000].map HostMove.command ++ [.reset none] := by decide

theorem witness_BrokenTablesRefuseTransforms : isTransform (.enc 0) = true ∧ ¬TablesInv staleState := by decide

theorem witness_IdleStepChangesNothing : State.reset.moves = [] := rfl

/-- SavedRecordsLoadBack, RejectedFilesSendNoCommand and ProperRecordsAreSent: a path with the extension, and two without. -/
theorem witness_HostPaths :
    pathAccepted ['t', '.', 'j', 's', 'o', 'n'] = true ∧ pathAccepted ['t', '.', 't', 'x', 't'] = false ∧
    pathAccepted ['j', 's', 'o', 'n'] = false := by decide

/-- Entries under the keys of `ks`, each with the value `f` gives it. -/
def entriesWith (ks : List Nat) (f : Nat → Option Int) : List (List Char × Option Int) :=
  ks.map fun i => (Nat.toDigits 10 i, f i)

/-- RejectedFilesSendNoCommand, a substitution record with each cause: 15 and 17 entries, key 15 missing, key 16 extra, a value that
is no integer, -1, 256. -/
theorem witness_RejectedFilesSendNoCommand_constants :
    (entriesWith (List.range 15) fun i => some i).length ≠ 16 ∧ (entriesWith (List.range 17) fun i => some i).length ≠ 16 ∧
    (∃ i < 16, ∀ e ∈ entriesWith (List.range 15 ++ [0]) fun i => some i, e.1 ≠ Nat.toDigits 10 i) ∧
    (∃ e ∈ entriesWith (List.range 15 ++ [16]) fun i => some i, ∀ i < 16, e.1 ≠ Nat.toDigits 10 i) ∧
    (∃ e ∈ entriesWith (List.range 16) fun i => if i = 15 then none else some i, e.2 = none) ∧
    (∃ e ∈ entriesWith (List.range 16) fun i => some (i - 1), ∃ v : Int, e.2 = some v ∧ (v < 0 ∨ 255 < v)) ∧
    ∃ e ∈ entriesWith (List.range 16) fun i => some (i + 241), ∃ v : Int, e.2 = some v ∧ (v < 0 ∨ 255 < v) :=
  ⟨by decide, by decide, ⟨15, by decide, by decide⟩, by decide, by decide,
    ⟨(['0'], some (-1)), by decide, -1, rfl, by decide⟩, ⟨(['1', '5'], some 256), by decide, 256, rfl, by decide⟩⟩

/-- RejectedFilesSendNoCommand, a permutation record with each cause: 7 and 9 elements, an element that is no integer, -1, 256. -/
theorem witness_RejectedFilesSendNoCommand_permutation :
    [some 0, some 1, some 2, some 3, some 4, some 5, some (6 : Int)].length ≠ 8 ∧ (List.replicate 9 (some (0 : Int))).length ≠ 8 ∧
    none ∈ [some 0, some 1, some 2, some 3, some 4, some 5, some (6 : Int), none] ∧
    (∃ v : Int, some v ∈ [some 0, some 1, some 2, some 3, some 4, some 5, some 6, some (-1)] ∧ (v < 0 ∨ 255 < v)) ∧
    ∃ v : Int, some v ∈ [some 0, some 1, some 2, some 3, some 4, some 5, some 6, some 256] ∧ (v < 0 ∨ 255 < v) :=
  ⟨by decide, by decide, by decide, ⟨-1, by decide, by decide⟩, 256, by decide, by decide⟩

/-- ProperRecordsAreSent: the keys in falling order, with the values 0 and 255 among them. -/
theorem witness_ProperRecordsAreSent :
    ([0, 1, 2, 3, 4, 5, 6, 7, 8, 9, 10, 11, 12, 13, 14, 255] : List Byte).length = 16 ∧
    (entriesWith (List.range 16).reverse fun i => if i = 15 then some 255 else some i).Perm ((List.range 16).map fun i =>
      (Nat.toDigits 10 i, some (Int.ofNat
        (([0, 1, 2, 3, 4, 5, 6, 7, 8, 9, 10, 11, 12, 13, 14, 255] : List Byte).getD i 0).toNat))) ∧
    ([0, 1, 2, 3, 4, 5, 6, 255] : List Byte).length = 8 := by decide

end Sys2Proof.Tests
end

/-! PROOFS. The scope statements (00_scope): the inverse table, a program of command words, the idle step. -/

namespace Sys2Proof.Proofs

open Sys2Proof.Machine Sys2Proof.Laws

/-! ## The inverse table (R15, R25, R27) -/

/-- A table that undoes a permutation agrees with the inverse table at every image, and every entry of a permutation is an image. -/
theorem eq_inverseTable_iff {w : Nat} {t : Table w} (ht : IsPerm t) (u : Table w) :
    u = inverseTable t ↔ ∀ x, lookup u (lookup t x) = x := by
  constructor
  · rintro rfl
    exact lookup_inverseTable_lookup ht
  · intro hu
    refine table_ext fun y => ?_
    calc lookup u y = lookup u (lookup t (lookup (inverseTable t) y)) := by rw [lookup_lookup_inverseTable ht]
      _ = lookup (inverseTable t) y := hu _

/-- Settles O5: the inverse table is the only table that undoes a permutation, and the permutation undoes it. -/
theorem inverseTableIsTheTwoSidedInverse : Obligations.InverseTableIsTheTwoSidedInverse := by
  intro w t u ht
  refine ⟨eq_inverseTable_iff ht u, ?_⟩
  rintro rfl
  exact lookup_lookup_inverseTable ht

/-! ## What one command word does to the invariants and the host's lists (R48, R160, R183) -/

section OneCommand

variable {s t : State} {i : Instr}

/-- A response of status OK is lawful whatever its data (R186). -/
theorem lawfulResponse_ok (dat : Arg) : LawfulResponse (responseWord .ok dat) := by
  simp [LawfulResponse, responseWord, statusCode]

/-- An error response is lawful, data zero, with every status but the one reserved for the host (R154, R166). -/
theorem lawfulResponse_error {e : Status} (he : e ≠ .notFound) : LawfulResponse (responseWord e 0) := by
  refine ⟨?_, fun _ => dataField_append _ _⟩
  rw [responseWord, statusField_append]
  cases e with
  | ok => exact .inl rfl
  | invalidTable => exact .inr (.inl rfl)
  | format => exact .inr (.inr (.inl rfl))
  | notFound => exact absurd rfl he
  | illegalCommand => exact .inr (.inr (.inr rfl))

/-- No command breaks a table invariant (R24 to R27). -/
theorem exec_keeps_tablesInv (hs : TablesInv s) (h : exec i s = .next t) : TablesInv t := by
  cases exec_next h with
  | read dat _ ht => exact ht ▸ hs
  | failed e _ _ _ ht => exact ht ▸ hs
  | wroteS tab k _ _ hp _ ht => exact ht ▸ tablesInv_writeS (s := { s with draws := k }) hs hp
  | wroteP tab k _ _ hp _ ht => exact ht ▸ tablesInv_writeP (s := { s with draws := k }) hs hp

/-- No command touches the host's moves ahead. -/
theorem exec_keeps_moves (h : exec i s = .next t) : t.moves = s.moves := by
  cases exec_next h with
  | read dat _ ht => rw [ht, respond_moves]
  | failed e _ _ _ ht => rw [ht, respond_moves]
  | wroteS tab k _ _ _ _ ht => rw [ht, respond_moves, writeS_moves]
  | wroteP tab k _ _ _ _ ht => rw [ht, respond_moves, writeP_moves]

/-- Every command returns exactly one response, after all earlier ones, and it is lawful (R48, R183, R186). -/
theorem exec_appends_lawfulResponse (h : exec i s = .next t) :
    ∃ rw, t.responses = s.responses ++ [rw] ∧ LawfulResponse rw := by
  cases exec_next h with
  | read dat _ ht => exact ⟨_, by rw [ht, respond_responses], lawfulResponse_ok dat⟩
  | failed e _ _ he ht =>
    have hne : e ≠ .notFound := by rcases he with rfl | rfl <;> decide
    exact ⟨_, by rw [ht, respond_responses], lawfulResponse_error hne⟩
  | wroteS tab k _ _ _ _ ht => exact ⟨_, by rw [ht, respond_responses, writeS_responses], lawfulResponse_ok 0⟩
  | wroteP tab k _ _ _ _ ht => exact ⟨_, by rw [ht, respond_responses, writeP_responses], lawfulResponse_ok 0⟩

/-- From a state with the invariants every command word, whether it decodes or not, is answered by one lawful response and keeps the
invariants and the moves ahead. -/
theorem runWord_answers (hs : TablesInv s) (cw : CommandWord) :
    ∃ t rw, runWord cw s = .next t ∧ TablesInv t ∧ t.moves = s.moves ∧
      t.responses = s.responses ++ [rw] ∧ LawfulResponse rw := by
  cases hd : decode cw with
  | ok i =>
    obtain ⟨t, ht⟩ := exec_answers hs i
    obtain ⟨rw, hresp, hrw⟩ := exec_appends_lawfulResponse ht
    exact ⟨t, rw, (runWord_of_ok hd s).trans ht, exec_keeps_tablesInv hs ht, exec_keeps_moves ht, hresp, hrw⟩
  | error e =>
    exact ⟨_, _, runWord_of_error hd s, hs, rfl, rfl, lawfulResponse_error (by decide)⟩

/-- The step that takes a command word: `runWord_answers`, with that word gone from the moves ahead. -/
theorem step_command_answers {cw : CommandWord} {rest : List HostMove} (hs : TablesInv s)
    (hm : s.moves = .command cw :: rest) :
    ∃ t rw, step s = .next t ∧ TablesInv t ∧ t.moves = rest ∧ t.responses = s.responses ++ [rw] ∧ LawfulResponse rw := by
  rw [step_of_command hm]
  exact runWord_answers (s := { s with moves := rest }) hs cw

end OneCommand

/-! ## Programs and the idle step (R10, R11, R48) -/

/-- Settles O50, by induction on the program: the first word is answered by one step, the others by the run from the state it
leads to. -/
theorem programsRunToTheirEnd : Obligations.ProgramsRunToTheirEnd := by
  intro cws rest
  induction cws with
  | nil =>
    intro s hs hm
    refine ⟨[], rfl, by simp, fun k hk => ?_⟩
    obtain rfl : k = 0 := by simpa using hk
    exact ⟨s, run_zero _ _, hs, hm, by simp⟩
  | cons cw cws ih =>
    intro s hs hm
    obtain ⟨t, rw, hstep, ht, htm, htr, hrw⟩ := step_command_answers hs hm
    obtain ⟨rws, hlen, hlawful, hrun⟩ := ih t ht htm
    refine ⟨rw :: rws, by simp [hlen], by simpa using ⟨hrw, hlawful⟩, fun k hk => ?_⟩
    cases k with
    | zero => exact ⟨s, run_zero _ _, hs, hm, by simp⟩
    | succ k =>
      obtain ⟨u, hu, hinv, hmoves, hresp⟩ := hrun k (by simpa using hk)
      exact ⟨u, (run_core_succ k hstep).trans hu, hinv, hmoves, by simp [hresp, htr]⟩

/-- Settles O53: with no move ahead there is nothing to take. -/
theorem idleStepChangesNothing : Obligations.IdleStepChangesNothing := fun _ hm => step_of_idle hm

end Sys2Proof.Proofs

/-! PROOFS. The state statements (10_state): reset, the invariants, what a step may write, the frame and the noninterference of the
two families, and how every pair of tables is reached. -/

namespace Sys2Proof.Proofs

open Sys2Proof.Machine Sys2Proof.Laws

/-! ## What a step can do (R61, R175, R186) -/

section OneStep

variable {s t : State} {i : Instr}

/-- Everything a step can do, by what the host's next move was. -/
inductive StepResult (s t : State) : Prop where
  | idle (hm : s.moves = []) (ht : t = s)
  | reset (c : Option CommandWord) (rest : List HostMove) (hm : s.moves = .reset c :: rest)
      (ht : t = hardReset { s with moves := rest })
  | illegal (cw : CommandWord) (rest : List HostMove) (hm : s.moves = .command cw :: rest)
      (ht : t = respond .illegalCommand 0 { s with moves := rest })
  | executed (cw : CommandWord) (rest : List HostMove) (i : Instr) (hm : s.moves = .command cw :: rest)
      (hd : decode cw = .ok i) (hx : exec i { s with moves := rest } = .next t)

/-- The inversion lemma of `step`. -/
theorem step_next (h : step s = .next t) : StepResult s t := by
  cases hm : s.moves with
  | nil =>
    rw [step_of_idle hm] at h
    cases h
    exact .idle hm rfl
  | cons m rest =>
    cases m with
    | reset c =>
      rw [step_of_reset hm] at h
      cases h
      exact .reset c rest hm rfl
    | command cw =>
      rw [step_of_command hm] at h
      cases hd : decode cw with
      | ok i => exact .executed cw rest i hm hd (runWord_of_ok hd _ ▸ h)
      | error e =>
        rw [runWord_of_error hd] at h
        cases h
        exact .illegal cw rest hm rfl

/-! ## Which registers a command may write (R20 to R23, R29) -/

/-- A command writes no table, or it is a mutation of one family and leaves the other family's pair of tables alone. -/
theorem exec_writes_own_tables (h : exec i s = .next t) :
    SameTables s t ∨
    (readsOnly i = false ∧ inSubstitutionFamily i = true ∧ t.P = s.P ∧ t.PI = s.PI) ∨
    (readsOnly i = false ∧ inPermutationFamily i = true ∧ t.S = s.S ∧ t.SI = s.SI) := by
  cases exec_next h with
  | read dat _ ht => exact .inl (ht ▸ ⟨rfl, rfl, rfl, rfl⟩)
  | failed e _ _ _ ht => exact .inl (ht ▸ ⟨rfl, rfl, rfl, rfl⟩)
  | wroteS tab k hi hf _ _ ht => exact .inr (.inl ⟨hi, hf, ht ▸ ⟨rfl, rfl⟩⟩)
  | wroteP tab k hi hf _ _ ht => exact .inr (.inr ⟨hi, hf, ht ▸ ⟨rfl, rfl⟩⟩)

/-- The same of a step, which may also be a reset. -/
theorem step_writes_own_tables (h : step s = .next t) :
    SameTables s t ∨ (∃ c rest, s.moves = .reset c :: rest) ∨
    ∃ cw rest i, s.moves = .command cw :: rest ∧ decode cw = .ok i ∧ readsOnly i = false ∧
      ((inSubstitutionFamily i = true ∧ t.P = s.P ∧ t.PI = s.PI) ∨
        (inPermutationFamily i = true ∧ t.S = s.S ∧ t.SI = s.SI)) := by
  cases step_next h with
  | idle _ ht => exact .inl (ht ▸ ⟨rfl, rfl, rfl, rfl⟩)
  | reset c rest hm _ => exact .inr (.inl ⟨c, rest, hm⟩)
  | illegal cw rest _ ht => exact .inl (ht ▸ ⟨rfl, rfl, rfl, rfl⟩)
  | executed cw rest i hm hd hx =>
    rcases exec_writes_own_tables hx with hsame | ⟨hi, hf, hP⟩ | ⟨hi, hf, hS⟩
    · exact .inl hsame
    · exact .inr (.inr ⟨cw, rest, i, hm, hd, hi, .inl ⟨hf, hP⟩⟩)
    · exact .inr (.inr ⟨cw, rest, i, hm, hd, hi, .inr ⟨hf, hS⟩⟩)

/-- No command is in both families (R59). -/
theorem not_inPermutationFamily (hf : inSubstitutionFamily i = true) : inPermutationFamily i = false := by
  cases i with
  | subn | isubn | sub | isub | sets | rnds | rsts | rds | lds => rfl
  | perm | iperm | setp | rndp | rstp | rdp | ldp | enc | dec => cases hf

/-- The mutations of the substitution family (R20). -/
theorem writerS_cases (hi : readsOnly i = false) (hf : inSubstitutionFamily i = true) :
    (∃ vs, i = .sets vs) ∨ (∃ vs, i = .lds vs) ∨ i = .rnds ∨ i = .rsts := by
  cases i with
  | sets vs => exact .inl ⟨vs, rfl⟩
  | lds vs => exact .inr (.inl ⟨vs, rfl⟩)
  | rnds => exact .inr (.inr (.inl rfl))
  | rsts => exact .inr (.inr (.inr rfl))
  | subn | isubn | sub | isub | rds | perm | iperm | rdp | enc | dec => cases hi
  | setp | rndp | rstp | ldp => cases hf

/-- The mutations of the permutation family (R22). -/
theorem writerP_cases (hi : readsOnly i = false) (hf : inPermutationFamily i = true) :
    (∃ qs, i = .setp qs) ∨ (∃ qs, i = .ldp qs) ∨ i = .rndp ∨ i = .rstp := by
  cases i with
  | setp qs => exact .inl ⟨qs, rfl⟩
  | ldp qs => exact .inr (.inl ⟨qs, rfl⟩)
  | rndp => exact .inr (.inr (.inl rfl))
  | rstp => exact .inr (.inr (.inr rfl))
  | subn | isubn | sub | isub | rds | perm | iperm | rdp | enc | dec => cases hi
  | sets | rnds | rsts | lds => cases hf

/-! ## What a command reads and draws (R29, log entry 4) -/

/-- A command takes one draw if it is a randomize command, and none if not (log entry 4). -/
theorem exec_draws (h : exec i s = .next t) :
    t.draws = if i = .rnds ∨ i = .rndp then s.draws + 1 else s.draws := by
  cases exec_next h with
  | read dat hi ht =>
    have hne : ¬(i = .rnds ∨ i = .rndp) := by rintro (rfl | rfl) <;> cases hi
    rw [ht, respond_draws, if_neg hne]
  | failed e _ hc _ ht =>
    have hne : ¬(i = .rnds ∨ i = .rndp) := by rintro (rfl | rfl) <;> simp [commandOf] at hc
    rw [ht, respond_draws, if_neg hne]
  | wroteS tab k _ hf _ hk ht =>
    have hne : i ≠ .rndp := by rintro rfl; cases hf
    simp [ht, hk, hne]
  | wroteP tab k _ hf _ hk ht =>
    have hne : i ≠ .rnds := by rintro rfl; cases hf
    simp [ht, hk, hne]

/-- A command of the substitution family does the same whatever `P` and `PI` are, as long as they meet the invariants. -/
theorem exec_substitution_ignores_P {P' PI' : Table 3} (hf : inSubstitutionFamily i = true)
    (hs' : TablesInv { s with P := P', PI := PI' }) (h : exec i s = .next t) :
    exec i { s with P := P', PI := PI' } = .next { t with P := P', PI := PI' } := by
  have ofTransform : ∀ dat, transform dat s = .next t →
      transform dat { s with P := P', PI := PI' } = .next { t with P := P', PI := PI' } := by
    intro dat ht
    obtain ⟨_, rfl⟩ := transform_next ht
    exact transform_of_inv hs' dat
  have ofLoad : ∀ e vs, loadS e vs s = .next t →
      loadS e vs { s with P := P', PI := PI' } = .next { t with P := P', PI := PI' } := by
    intro e vs ht
    rcases loadS_next ht with ⟨hp, rfl⟩ | ⟨hp, rfl⟩
    · exact loadS_of_perm hp
    · exact loadS_of_not_perm hp
  cases i with
  | subn | isubn | sub | isub => exact ofTransform _ h
  | sets | lds => exact ofLoad _ _ h
  | rnds | rsts | rds => cases h; rfl
  | perm | iperm | setp | rndp | rstp | rdp | ldp | enc | dec => cases hf

/-- A command of the permutation family does the same whatever `S` and `SI` are, as long as they meet the invariants. -/
theorem exec_permutation_ignores_S {S' SI' : Table 4} (hf : inPermutationFamily i = true)
    (hs' : TablesInv { s with S := S', SI := SI' }) (h : exec i s = .next t) :
    exec i { s with S := S', SI := SI' } = .next { t with S := S', SI := SI' } := by
  have ofTransform : ∀ dat, transform dat s = .next t →
      transform dat { s with S := S', SI := SI' } = .next { t with S := S', SI := SI' } := by
    intro dat ht
    obtain ⟨_, rfl⟩ := transform_next ht
    exact transform_of_inv hs' dat
  have ofLoad : ∀ e qs, loadP e qs s = .next t →
      loadP e qs { s with S := S', SI := SI' } = .next { t with S := S', SI := SI' } := by
    intro e qs ht
    rcases loadP_next ht with ⟨hp, rfl⟩ | ⟨hp, rfl⟩
    · exact loadP_of_perm hp
    · exact loadP_of_not_perm hp
  cases i with
  | perm | iperm => exact ofTransform _ h
  | setp | ldp => exact ofLoad _ _ h
  | rndp | rstp | rdp => cases h; rfl
  | subn | isubn | sub | isub | sets | rnds | rsts | rds | lds | enc | dec => cases hf

end OneStep

/-! ## The invariants (R24 to R27) -/

/-- Settles O4: reset installs the default tables, which satisfy the invariants; every other move keeps them. -/
theorem everyStepKeepsTableInvariant : Obligations.EveryStepKeepsTableInvariant := by
  intro s t hs h
  cases step_next h with
  | idle _ ht => exact ht ▸ hs
  | reset c rest _ ht => exact ht ▸ tablesInv_hardReset _
  | illegal cw rest _ ht => exact ht ▸ hs
  | executed cw rest i _ _ hx => exact exec_keeps_tablesInv (s := { s with moves := rest }) hs hx

/-- Settles O1: `S[x] = x xor 1` is checked nibble by nibble; the tables are the listed ones by definition. -/
theorem resetLeavesDefaultTables : Obligations.ResetLeavesDefaultTables := ⟨rfl, by decide, rfl, rfl, rfl⟩

/-- Settles O3: the reset state holds the default tables. -/
theorem resetHoldsTableInvariant : Obligations.ResetHoldsTableInvariant :=
  ⟨isPerm_sDefault, siDefault_eq, isPerm_pDefault, piDefault_eq⟩

/-! ## The two families: what they write, their frames and their noninterference (R29, R47, R183) -/

/-- Settles O46: a step that is no reset writes the tables of at most one family, and then by a mutation of that family. -/
theorem tablesWrittenOnlyByTheirCommands : Obligations.TablesWrittenOnlyByTheirCommands := by
  intro s t h
  rcases step_writes_own_tables h with ⟨hS, hSI, hP, hPI⟩ | hreset |
    ⟨cw, rest, i, hm, hd, hi, ⟨hf, hP, hPI⟩ | ⟨hf, hS, hSI⟩⟩
  · exact ⟨fun hne => absurd hne (by simp [hS, hSI]), fun hne => absurd hne (by simp [hP, hPI])⟩
  · exact ⟨fun _ => .inl hreset, fun _ => .inl hreset⟩
  · exact ⟨fun _ => .inr ⟨cw, rest, i, hm, hd, writerS_cases hi hf⟩, fun hne => absurd hne (by simp [hP, hPI])⟩
  · exact ⟨fun hne => absurd hne (by simp [hS, hSI]), fun _ => .inr ⟨cw, rest, i, hm, hd, writerP_cases hi hf⟩⟩

/-- Settles O42: a command of the substitution family is none of the permutation family, so it writes at most `S` and `SI`. -/
theorem substitutionFamilyFrame : Obligations.SubstitutionFamilyFrame := by
  intro i s t hf h
  have hne : i ≠ .rndp := by rintro rfl; cases hf
  obtain ⟨hP, hPI⟩ : t.P = s.P ∧ t.PI = s.PI := by
    rcases exec_writes_own_tables h with ⟨_, _, hPs⟩ | ⟨_, _, hPs⟩ | ⟨_, hf', _⟩
    · exact hPs
    · exact hPs
    · exact absurd hf' (by simp [not_inPermutationFamily hf])
  obtain ⟨rw, hresp, _⟩ := exec_appends_lawfulResponse h
  exact ⟨hP, hPI, exec_keeps_moves h, by simpa [hne] using exec_draws h, rw, hresp⟩

/-- Settles O43: a command of the permutation family is none of the substitution family, so it writes at most `P` and `PI`. -/
theorem permutationFamilyFrame : Obligations.PermutationFamilyFrame := by
  intro i s t hf h
  have hne : i ≠ .rnds := by rintro rfl; cases hf
  obtain ⟨hS, hSI⟩ : t.S = s.S ∧ t.SI = s.SI := by
    rcases exec_writes_own_tables h with ⟨hS, hSI, _⟩ | ⟨_, hf', _⟩ | ⟨_, _, hSs⟩
    · exact ⟨hS, hSI⟩
    · exact absurd hf (by simp [not_inPermutationFamily hf'])
    · exact hSs
  obtain ⟨rw, hresp, _⟩ := exec_appends_lawfulResponse h
  exact ⟨hS, hSI, exec_keeps_moves h, by simpa [hne] using exec_draws h, rw, hresp⟩

/-- Settles O44: that the first state has the invariants follows from its transforms' answering; only the second state's are used. -/
theorem familiesIgnoreTheOtherTables : Obligations.FamiliesIgnoreTheOtherTables :=
  ⟨fun _ _ _ _ _ hf _ hs' h => exec_substitution_ignores_P hf hs' h,
    fun _ _ _ _ _ hf _ hs' h => exec_permutation_ignores_S hf hs' h⟩

/-! ## Loading a whole table (R43, R85, R103) -/

section WholeTable

variable {w : Nat} {s : State}

/-- Reading the slots of a payload gives back the bytes it was packed from (R43). -/
theorem slots_packSlots {k : Nat} (vs : List Byte) (hlen : vs.length = k) (hk : k ≤ 16) :
    slots k (packSlots vs) = vs := by
  subst hlen
  refine List.ext_getElem (by simp [slots]) fun i _ hi => ?_
  simp [slots, slot_packSlots vs i (by omega), hi]

/-- The slots of a whole-table payload are the table's entries, zero-extended (R58). -/
theorem slots_tablePayload (hw : w ≤ 4) (tab : Table w) :
    slots (2 ^ w) (tablePayload tab) = tab.toList.map (BitVec.setWidth 8) :=
  slots_packSlots _ (by simp) (Nat.pow_le_pow_right (by omega) hw)

/-- Zero extension to a byte loses nothing. -/
theorem setWidth_byte_injective (hw : w ≤ 8) : Function.Injective (BitVec.setWidth 8 : BitVec w → Byte) := by
  intro x y h
  have hback := congrArg (BitVec.setWidth w) h
  rwa [BitVec.setWidth_setWidth_of_le _ hw, BitVec.setWidth_setWidth_of_le _ hw, BitVec.setWidth_eq,
    BitVec.setWidth_eq] at hback

/-- The slots of the payload of a permutation are a valid candidate (R84, R102). -/
theorem permSeq_slots_tablePayload (hw : w ≤ 4) {tab : Table w} (h : IsPerm tab) :
    PermSeq (2 ^ w) (slots (2 ^ w) (tablePayload tab)) := by
  rw [slots_tablePayload hw]
  refine ⟨by simp, fun v hv => ?_, h.map (setWidth_byte_injective (by omega))⟩
  obtain ⟨x, _, rfl⟩ := List.mem_map.mp hv
  rw [BitVec.toNat_setWidth]
  exact (Nat.mod_le _ _).trans_lt x.isLt

/-- The candidate in the payload of a table is that table (R85, R103). -/
theorem tableOfSlots_slots_tablePayload (hw : w ≤ 4) (tab : Table w) :
    tableOfSlots w (slots (2 ^ w) (tablePayload tab)) = tab := by
  refine table_ext fun x => ?_
  have hx : x.toNat < 2 ^ w := x.isLt
  have hslot : (slots (2 ^ w) (tablePayload tab)).getD x.toNat 0 = (lookup tab x).setWidth 8 := by
    rw [← slot_tablePayload hw tab x]
    simp [slots, hx]
  rw [lookup_tableOfSlots, hslot, BitVec.setWidth_setWidth_of_le _ (by omega), BitVec.setWidth_eq]

/-- Loading the payload of a permutation installs it with its inverse. -/
theorem loadS_slots_tablePayload {tab : Table 4} (h : IsPerm tab) (e : Status) (s : State) :
    loadS e (slots 16 (tablePayload tab)) s = .next (respond .ok 0 (writeS tab s)) := by
  have hperm : PermSeq 16 (slots 16 (tablePayload tab)) := permSeq_slots_tablePayload (w := 4) (by decide) h
  have htab : tableOfSlots 4 (slots 16 (tablePayload tab)) = tab := tableOfSlots_slots_tablePayload (w := 4) (by decide) tab
  rw [loadS_of_perm hperm, htab]

/-- The same for the permutation table. -/
theorem loadP_slots_tablePayload {tab : Table 3} (h : IsPerm tab) (e : Status) (s : State) :
    loadP e (slots 8 (tablePayload tab)) s = .next (respond .ok 0 (writeP tab s)) := by
  have hperm : PermSeq 8 (slots 8 (tablePayload tab)) := permSeq_slots_tablePayload (w := 3) (by decide) h
  have htab : tableOfSlots 3 (slots 8 (tablePayload tab)) = tab := tableOfSlots_slots_tablePayload (w := 3) (by decide) tab
  rw [loadP_of_perm hperm, htab]

/-- The word of `SETS` with all entries of a table in its slots. -/
def setsWord (tab : Table 4) : CommandWord := opcodeOf .sets ++ tablePayload tab

/-- The word of `SETP` with all entries of a table in its slots. -/
def setpWord (tab : Table 3) : CommandWord := opcodeOf .setp ++ tablePayload tab

theorem decode_setsWord (tab : Table 4) : decode (setsWord tab) = .ok (.sets (slots 16 (tablePayload tab))) := by
  rw [setsWord, decode_of_row (c := .sets) (opOf_append _ _).symm BitVec.and_zero, argOf_append]
  rfl

theorem decode_setpWord (tab : Table 3) : decode (setpWord tab) = .ok (.setp (slots 8 (tablePayload tab))) := by
  have hmask : tablePayload tab &&& reservedMask .t8 = 0 := packSlots_and_mask _ (by simp)
  rw [setpWord, decode_of_row (c := .setp) (opOf_append _ _).symm (by rw [argOf_append]; exact hmask), argOf_append]
  rfl

/-- The step that takes the `SETS` word of a permutation installs it with its inverse and answers OK (R85). -/
theorem step_setsWord {tab : Table 4} {rest : List HostMove} (h : IsPerm tab)
    (hm : s.moves = .command (setsWord tab) :: rest) :
    step s = .next (respond .ok 0 (writeS tab { s with moves := rest })) := by
  rw [step_of_command hm, runWord_of_ok (decode_setsWord tab)]
  exact loadS_slots_tablePayload h _ _

/-- The same for `SETP` (R103). -/
theorem step_setpWord {tab : Table 3} {rest : List HostMove} (h : IsPerm tab)
    (hm : s.moves = .command (setpWord tab) :: rest) :
    step s = .next (respond .ok 0 (writeP tab { s with moves := rest })) := by
  rw [step_of_command hm, runWord_of_ok (decode_setpWord tab)]
  exact loadP_slots_tablePayload h _ _

end WholeTable

/-- A run of two steps that both answer. -/
theorem run_core_two {s t u : State} (hst : step s = .next t) (htu : step t = .next u) :
    Host.Core.run Sys2Proof.core 2 s = .next u :=
  (run_core_succ 1 hst).trans ((run_core_succ 0 htu).trans (run_zero Sys2Proof.core u))

/-- The response OK without data is the zero word (R56, R156). -/
theorem responseWord_ok_zero : responseWord .ok 0#128 = 0#136 := by decide

/-- Settles O51: `SETS` with the entries of `S`, then `SETP` with the entries of `P`. -/
theorem everyTablePairIsReachable : Obligations.EveryTablePairIsReachable := by
  rintro s ⟨hS, hSI, hP, hPI⟩
  refine ⟨setsWord s.S, setpWord s.P, _, run_core_two (step_setsWord hS rfl) (step_setpWord hP rfl), ?_, ?_⟩
  · simp [SameTables, hSI, hPI]
  · simp [responseWord_ok_zero, State.reset]

end Sys2Proof.Proofs

/-! PROOFS. The memory statement (20_memory): issuing a command again. -/

namespace Sys2Proof.Proofs

open Sys2Proof.Machine Sys2Proof.Laws

section Repeated

variable {s t : State} {i : Instr}

/-- A transform or read-out that answers writes only its response, so that the same command finds the same tables again and returns
the same data (R47). -/
theorem exec_repeats_answer (hi : readsOnly i = true) (h : exec i s = .next t) :
    ∃ dat, t = respond .ok dat s ∧ exec i t = .next (respond .ok dat t) := by
  have ofTransform : ∀ dat, transform dat s = .next t →
      t = respond .ok dat s ∧ transform dat t = .next (respond .ok dat t) := by
    intro dat ht
    obtain ⟨hs, rfl⟩ := transform_next ht
    exact ⟨rfl, transform_of_inv (s := respond .ok dat s) hs dat⟩
  cases i with
  | subn | isubn | sub | isub | perm | iperm | enc | dec =>
    obtain ⟨rfl, hagain⟩ := ofTransform _ h
    exact ⟨_, rfl, hagain⟩
  | rds | rdp =>
    cases h
    exact ⟨_, rfl, rfl⟩
  | sets | rnds | rsts | lds | setp | rndp | rstp | ldp => cases hi

/-- Loading the same candidate into `S` again writes the same pair of tables, or fails again and writes none (R85, R86). -/
theorem loadS_again {e : Status} {vs : List Byte} (h : loadS e vs s = .next t) :
    ∃ u, loadS e vs t = .next u ∧ SameTables t u := by
  rcases loadS_next h with ⟨hp, rfl⟩ | ⟨hp, rfl⟩
  · exact ⟨_, loadS_of_perm hp, by simp [SameTables]⟩
  · exact ⟨_, loadS_of_not_perm hp, by simp [SameTables]⟩

/-- The same for `P` (R103, R104). -/
theorem loadP_again {e : Status} {qs : List Byte} (h : loadP e qs s = .next t) :
    ∃ u, loadP e qs t = .next u ∧ SameTables t u := by
  rcases loadP_next h with ⟨hp, rfl⟩ | ⟨hp, rfl⟩
  · exact ⟨_, loadP_of_perm hp, by simp [SameTables]⟩
  · exact ⟨_, loadP_of_not_perm hp, by simp [SameTables]⟩

/-- A mutation that draws nothing is a load of its own candidate or a restoring of fixed tables: issued again it answers and leaves
the tables as they are (R47). -/
theorem exec_mutation_again (hi : readsOnly i = false) (hrnds : i ≠ .rnds) (hrndp : i ≠ .rndp) (h : exec i s = .next t) :
    ∃ u, exec i t = .next u ∧ SameTables t u := by
  cases i with
  | sets | lds => exact loadS_again h
  | setp | ldp => exact loadP_again h
  | rsts | rstp =>
    cases h
    exact ⟨_, rfl, rfl, rfl, rfl, rfl⟩
  | rnds => exact absurd rfl hrnds
  | rndp => exact absurd rfl hrndp
  | subn | isubn | sub | isub | rds | perm | iperm | rdp | enc | dec => cases hi

end Repeated

/-- Settles O45: the response of `exec_repeats_answer` is the word with status 0x00. -/
theorem repeatedCommandsAreIdempotent : Obligations.RepeatedCommandsAreIdempotent :=
  ⟨fun _ _ _ => exec_repeats_answer, fun _ _ _ => exec_mutation_again⟩

end Sys2Proof.Proofs

/-! PROOFS. The encoding statements (30_encoding): the round trips of the decoder and the encoder, the rows of the opcode table, the
words that are no command, and the assembler. -/

namespace Sys2Proof.Proofs

open Sys2Proof.Machine Sys2Proof.Laws

/-! ## Reserved bits (R57, R60) -/

section ReservedBits

variable {arg : Arg} {f : Format}

/-- How many low bits of the operand a format uses (R57); the bits from there upwards are reserved. -/
def operandWidth : Format → Nat
  | .n => 4
  | .b => 8
  | .z => 0
  | .t16 => 128
  | .t8 => 64

/-- The bits of the model's mask are those at and above the operand's width. -/
theorem getLsbD_reservedMask (f : Format) {k : Nat} (hk : k < 128) :
    (reservedMask f).getLsbD k = decide (operandWidth f ≤ k) := by
  cases f <;> (revert k; decide)

/-- The mask clears an operand just if every bit from the operand's width upwards is zero. -/
theorem and_reservedMask_eq_zero_iff :
    arg &&& reservedMask f = 0 ↔ ∀ k, operandWidth f ≤ k → arg.getLsbD k = false := by
  constructor
  · intro h k hk
    by_cases hlt : k < 128
    · have hbit := congrArg (BitVec.getLsbD · k) h
      simpa [getLsbD_reservedMask f hlt, hk] using hbit
    · exact BitVec.getLsbD_of_ge _ _ (by omega)
  · intro h
    apply BitVec.eq_of_getLsbD_eq
    intro k hk
    by_cases hw : operandWidth f ≤ k
    · simp [h k hw]
    · simp [getLsbD_reservedMask f hk, hw]

end ReservedBits

/-! ## Operands and their fields (R43, R57) -/

section Operands

variable {arg : Arg}

/-- A field of the operand holds what was zero-extended into it. -/
theorem extractLsb'_setWidth {w : Nat} (hw : w ≤ 128) (x : BitVec w) :
    (x.setWidth 128).extractLsb' 0 w = x := by
  rw [← BitVec.setWidth_eq_extractLsb' hw, BitVec.setWidth_setWidth_of_le x hw, BitVec.setWidth_eq]

/-- An operand that is zero above its low `w` bits is those bits, zero-extended. -/
theorem setWidth_extractLsb' {w : Nat} (h : ∀ k, w ≤ k → arg.getLsbD k = false) :
    (arg.extractLsb' 0 w).setWidth 128 = arg := by
  apply BitVec.eq_of_getLsbD_eq
  intro k hk
  by_cases hw : k < w
  · simp [hk, hw]
  · simp [hw, h k (by omega)]

/-- An operand that is zero above its first `n` slots is packed from them (R43). -/
theorem packSlots_slots {n : Nat} (h : ∀ k, 8 * n ≤ k → arg.getLsbD k = false) : packSlots (slots n arg) = arg := by
  apply BitVec.eq_of_getLsbD_eq
  intro k hk
  rw [getLsbD_packSlots]
  by_cases hn : k / 8 < n
  · have hpos : 8 * (k / 8) + k % 8 = k := by omega
    have hbit : k % 8 < 8 := by omega
    simp [slots, slot, hn, hk, hpos, hbit]
  · simp [slots, hn, h k (by omega)]

/-- Building a row's command from the operand of a well-formed command of that row gives the command back. -/
theorem buildInstr_operandOf {i : Instr} (hwf : i.wf = true) : buildInstr (operandOf i) (commandOf i) = i := by
  cases i with
  | subn n | isubn n => simp [buildInstr, operandOf, commandOf, extractLsb'_setWidth]
  | sub b | isub b | perm b | iperm b | enc b | dec b =>
    simp [buildInstr, operandOf, commandOf, extractLsb'_setWidth]
  | sets vs | lds vs =>
    have hlen : vs.length = 16 := by simpa [Instr.wf] using hwf
    simp [buildInstr, operandOf, commandOf, slots_packSlots vs hlen]
  | setp qs | ldp qs =>
    have hlen : qs.length = 8 := by simpa [Instr.wf] using hwf
    simp [buildInstr, operandOf, commandOf, slots_packSlots qs hlen]
  | rnds | rsts | rds | rndp | rstp | rdp => rfl

/-- With the reserved bits clear, the command built from an operand has that operand: no bit of it is dropped (R57, R60). -/
theorem operandOf_buildInstr {c : Command} (harg : arg &&& reservedMask (formatOf c) = 0) :
    operandOf (buildInstr arg c) = arg := by
  have hzero := and_reservedMask_eq_zero_iff.mp harg
  cases c with
  | subn | isubn | sub | isub | perm | iperm | enc | dec => exact setWidth_extractLsb' hzero
  | sets | lds | setp | ldp => exact packSlots_slots hzero
  | rnds | rsts | rds | rndp | rstp | rdp =>
    exact BitVec.eq_of_getLsbD_eq fun k _ => by simp [operandOf, buildInstr, hzero k (Nat.zero_le k)]

/-- The decoder builds well-formed commands only: as many slots as the format has (R57). -/
theorem wf_buildInstr (arg : Arg) (c : Command) : (buildInstr arg c).wf = true := by
  cases c with
  | sets | lds | setp | ldp => simp [buildInstr, Instr.wf, slots]
  | subn | isubn | sub | isub | rnds | rsts | rds | perm | iperm | rndp | rstp | rdp | enc | dec => rfl

end Operands

/-! ## The round trips (R55, R57, R59) -/

/-- Every command's word has the layout of R55 and R57. -/
theorem layout_statement : ∀ i : Instr, Layout.Statement i
  | .subn n => Layout.subn n
  | .isubn n => Layout.isubn n
  | .sub b => Layout.sub b
  | .isub b => Layout.isub b
  | .sets vs => Layout.sets vs
  | .rnds => Layout.rnds
  | .rsts => Layout.rsts
  | .rds => Layout.rds
  | .lds vs => Layout.lds vs
  | .perm b => Layout.perm b
  | .iperm b => Layout.iperm b
  | .setp qs => Layout.setp qs
  | .rndp => Layout.rndp
  | .rstp => Layout.rstp
  | .rdp => Layout.rdp
  | .ldp qs => Layout.ldp qs
  | .enc b => Layout.enc b
  | .dec b => Layout.dec b

/-- Settles O6: the word has the opcode of the command's row and its reserved bits clear, so it decodes to what that row builds from
the operand field, which is the command. -/
theorem decodeOfEncodeIsIdentity : Obligations.DecodeOfEncodeIsIdentity := by
  intro i hwf
  obtain ⟨hop, hmask⟩ := layout_statement i
  rw [decode_of_row hop.symm (hmask hwf), encode, argOf_append, buildInstr_operandOf hwf]

/-- Settles O7: the word is its opcode and its operand field; the command's row has that opcode and the command that operand. -/
theorem encodeOfDecodeIsIdentity : Obligations.EncodeOfDecodeIsIdentity := by
  intro cw i h
  obtain ⟨c, hop, harg, rfl⟩ := decode_eq_ok h
  refine ⟨wf_buildInstr _ c, ?_⟩
  rw [encode, commandOf_buildInstr, operandOf_buildInstr harg, hop, opOf_append_argOf]

/-! ## The rows of the opcode table (R59, R61) -/

section Rows

variable {s : State} {cw : CommandWord} {rest : List HostMove} {c : Command}

/-- A word matches a row by mask and match just if it has the row's opcode and the reserved bits of the row's format are clear. -/
theorem matches_row_iff :
    cw &&& maskOf c = matchOf c ↔ opcodeOf c = opOf cw ∧ argOf cw &&& reservedMask (formatOf c) = 0 := by
  have hones : opOf cw &&& 0xFF = opOf cw := BitVec.and_allOnes
  have hfields : cw &&& maskOf c = opOf cw ++ (argOf cw &&& reservedMask (formatOf c)) := by
    calc cw &&& maskOf c = (opOf cw ++ argOf cw) &&& maskOf c := by rw [opOf_append_argOf]
      _ = opOf cw ++ (argOf cw &&& reservedMask (formatOf c)) := by rw [maskOf, BitVec.and_append, hones]
  rw [hfields, matchOf]
  constructor
  · intro h
    have hop := congrArg opOf h
    have harg := congrArg argOf h
    rw [opOf_append, opOf_append] at hop
    rw [argOf_append, argOf_append] at harg
    exact ⟨hop.symm, harg⟩
  · rintro ⟨hop, harg⟩
    rw [hop, harg]

/-- The word of a row decodes to a command of that row (R61). -/
theorem decode_of_matches (h : cw &&& maskOf c = matchOf c) : ∃ i, decode cw = .ok i ∧ commandOf i = c := by
  obtain ⟨hop, harg⟩ := matches_row_iff.mp h
  exact ⟨_, decode_of_row hop harg, commandOf_buildInstr _ c⟩

/-- The step that takes a word of no row answers IllegalCommand and changes nothing else (R60, R61, R62). -/
theorem step_of_no_row (hm : s.moves = .command cw :: rest)
    (h : ∀ c, opcodeOf c = opOf cw → argOf cw &&& reservedMask (formatOf c) ≠ 0) :
    step s = .next (answered 0x04 0 { s with moves := rest }) := by
  rw [step_of_command hm]
  cases hd : decode cw with
  | ok i =>
    obtain ⟨c, hop, harg, _⟩ := decode_eq_ok hd
    exact absurd harg (h c hop)
  | error e => exact runWord_of_error hd _

end Rows

/-- Settles O9: the step takes the word, and the word's meaning is its command's. -/
theorem stepRunsDecodedCommand : Obligations.StepRunsDecodedCommand := by
  intro s cw rest i hm hd
  rw [step_of_command hm, runWord_of_ok hd]

/-- Settles O8: the opcodes are distinct, so at most one row matches; the rest is what a word of a row and of no row does. -/
theorem wordsSelectTheirTableRow : Obligations.WordsSelectTheirTableRow := by
  intro s cw rest hm
  refine ⟨fun c d hc hd => ?_, fun c hc => ?_, fun hnone => ?_⟩
  · exact opcodeOf_injective ((matches_row_iff.mp hc).1.trans (matches_row_iff.mp hd).1.symm)
  · obtain ⟨i, hd, hi⟩ := decode_of_matches hc
    exact ⟨i, hd, hi, stepRunsDecodedCommand s cw rest i hm hd⟩
  · exact step_of_no_row hm fun c hop harg => hnone c (matches_row_iff.mpr ⟨hop, harg⟩)

/-! ## Words that are no command (R60, R62) -/

/-- The opcodes of R59 lie in three ranges, one for each family. -/
theorem opcodeOf_ranges (c : Command) :
    (0x10 ≤ (opcodeOf c).toNat ∧ (opcodeOf c).toNat ≤ 0x18) ∨ (0x22 ≤ (opcodeOf c).toNat ∧ (opcodeOf c).toNat ≤ 0x28) ∨
      (0x30 ≤ (opcodeOf c).toNat ∧ (opcodeOf c).toNat ≤ 0x31) := by
  cases c <;> decide

/-- Settles O10: no row's opcode is in one of the four ranges, so the word is of no row. -/
theorem undefinedOpcodesAreIllegal : Obligations.UndefinedOpcodesAreIllegal := by
  intro s cw rest op hm hop hrange
  refine step_of_no_row hm fun c hc => ?_
  have hranges := opcodeOf_ranges c
  rw [hc, opOf, hop] at hranges
  omega

/-- The bits that R60 reserves, opcode by opcode, lie at and above the operand's width. -/
theorem operandWidth_le_of_reserved {c : Command} {k : Nat}
    (h : (opcodeOf c ∈ [0x10, 0x11] ∧ 4 ≤ k) ∨ (opcodeOf c ∈ [0x12, 0x13, 0x22, 0x23, 0x30, 0x31] ∧ 8 ≤ k) ∨
      opcodeOf c ∈ [0x15, 0x16, 0x17, 0x25, 0x26, 0x27] ∨ (opcodeOf c ∈ [0x24, 0x28] ∧ 64 ≤ k)) :
    operandWidth (formatOf c) ≤ k := by
  cases c with
  | rnds | rsts | rds | rndp | rstp | rdp => exact Nat.zero_le k
  | sets | lds => simp [opcodeOf] at h
  | subn | isubn | sub | isub | perm | iperm | setp | ldp | enc | dec =>
    simpa [opcodeOf, formatOf, operandWidth] using h

/-- A bit below 128 of a word is that bit of its operand (R55). -/
theorem getLsbD_argOf (cw : CommandWord) {k : Nat} (hk : k < 128) : (argOf cw).getLsbD k = cw.getLsbD k := by
  simp [argOf, hk]

/-- Settles O11: the bit is reserved in the only row that has the opcode, so the word is of no row. -/
theorem reservedBitsAreIllegal : Obligations.ReservedBitsAreIllegal := by
  intro s cw rest op k hm hop hk hbit hreserved
  refine step_of_no_row hm fun c hc harg => ?_
  have hcop : opcodeOf c = op := hc.trans hop
  have hwidth : operandWidth (formatOf c) ≤ k := operandWidth_le_of_reserved (hcop ▸ hreserved)
  have hclear := and_reservedMask_eq_zero_iff.mp harg k hwidth
  rw [getLsbD_argOf cw hk, hbit] at hclear
  cases hclear

/-! ## Words written out and words assembled (R59, R64) -/

/-- Settles O13: five closed words, evaluated. -/
theorem writtenWordsDecode : Obligations.WrittenWordsDecode := by
  refine ⟨?_, ?_, ?_, ?_, ?_⟩ <;> decide

/-- The payload of one slot is that byte, zero-extended. -/
theorem packSlots_singleton (v : Byte) : packSlots [v] = v.setWidth 128 := by
  simp [packSlots]

/-- Literals that fit their format leave its reserved bits clear (R57, R64). -/
theorem packSlots_and_mask_of_literalsFit {f : Format} {lits : List Nat} (h : literalsFit f lits = true) :
    packSlots (lits.map (BitVec.ofNat 8)) &&& reservedMask f = 0 := by
  cases f with
  | n =>
    obtain ⟨hlen, hfit⟩ : lits.length = 1 ∧ ∀ x ∈ lits, x < 16 := by simpa [literalsFit] using h
    obtain ⟨x, rfl⟩ := List.length_eq_one_iff.mp hlen
    have hx : x < 2 ^ 4 := hfit x (by simp)
    have hnibble : packSlots [BitVec.ofNat 8 x] = (BitVec.ofNat 4 x).setWidth 128 := by
      rw [packSlots_singleton, BitVec.setWidth_ofNat_of_le_of_lt (by decide) hx,
        BitVec.setWidth_ofNat_of_le_of_lt (by decide) (show x < 2 ^ 8 by omega)]
    rw [List.map_singleton, hnibble]
    exact nibble_and_mask _
  | b =>
    obtain ⟨hlen, _⟩ : lits.length = 1 ∧ ∀ x ∈ lits, x < 256 := by simpa [literalsFit] using h
    obtain ⟨x, rfl⟩ := List.length_eq_one_iff.mp hlen
    rw [List.map_singleton, packSlots_singleton]
    exact byte_and_mask _
  | z =>
    obtain rfl : lits = [] := by simpa [literalsFit] using h
    rfl
  | t16 => exact BitVec.and_zero
  | t8 =>
    obtain ⟨hlen, _⟩ : lits.length = 8 ∧ ∀ x ∈ lits, x < 256 := by simpa [literalsFit] using h
    exact packSlots_and_mask _ (by simpa using hlen)

/-- Settles O14: the assembled word has the mnemonic's opcode and, as the literals fit, clear reserved bits. -/
theorem assembledWordsAreCommands : Obligations.AssembledWordsAreCommands := by
  intro c lits
  refine ⟨fun hfit => ?_, fun hunfit => by simp [assemble, hunfit]⟩
  have hmask : argOf (opcodeOf c ++ packSlots (lits.map (BitVec.ofNat 8))) &&& reservedMask (formatOf c) = 0 := by
    rw [argOf_append]
    exact packSlots_and_mask_of_literalsFit hfit
  refine ⟨_, _, by rw [assemble, if_pos hfit], decode_of_row (opOf_append _ _).symm hmask, commandOf_buildInstr _ c,
    fun k hk => ?_⟩
  rw [argOf_append, slot_packSlots _ k hk]
  exact List.getD_map lits 0 (BitVec.ofNat 8)

end Sys2Proof.Proofs

/-! PROOFS. The substitution statements (40_substitution): the four transforms, whole-table loads and read-outs of `S`, the draws and the
default table. -/

namespace Sys2Proof.Proofs

open Sys2Proof.Machine Sys2Proof.Laws

/-! ## What the transforms answer and how the registers undo each other (R80 to R83, R90) -/

section Transforms

variable {s : State}

/-- `SUBN` answers with the entry (R80). -/
theorem exec_subn (hs : TablesInv s) (n : Nibble) :
    exec (.subn n) s = .next (answered 0x00 ((lookup s.S n).setWidth 128) s) :=
  transform_of_inv hs _

/-- `ISUBN` answers with the inverse entry (R81). -/
theorem exec_isubn (hs : TablesInv s) (n : Nibble) :
    exec (.isubn n) s = .next (answered 0x00 ((lookup s.SI n).setWidth 128) s) :=
  transform_of_inv hs _

/-- `SUB` answers with the byte substituted through `S` (R82). -/
theorem exec_sub (hs : TablesInv s) (b : Byte) :
    exec (.sub b) s = .next (answered 0x00 ((substituteByte s.S b).setWidth 128) s) :=
  transform_of_inv hs _

/-- `ISUB` answers with the byte substituted through `SI` (R83). -/
theorem exec_isub (hs : TablesInv s) (b : Byte) :
    exec (.isub b) s = .next (answered 0x00 ((substituteByte s.SI b).setWidth 128) s) :=
  transform_of_inv hs _

/-- `SI` undoes `S` on the nibbles, and `S` undoes `SI`. -/
theorem lookup_S_SI_inverse (hs : TablesInv s) :
    Function.LeftInverse (lookup s.SI) (lookup s.S) ∧ Function.RightInverse (lookup s.SI) (lookup s.S) := by
  obtain ⟨hS, hSI, _⟩ := hs
  rw [hSI]
  exact ⟨lookup_inverseTable_lookup hS, lookup_lookup_inverseTable hS⟩

/-- `SI` undoes `S` on the bytes, and `S` undoes `SI`. -/
theorem substituteByte_S_SI_inverse (hs : TablesInv s) :
    Function.LeftInverse (substituteByte s.SI) (substituteByte s.S) ∧
      Function.RightInverse (substituteByte s.SI) (substituteByte s.S) := by
  obtain ⟨hS, hSI, _⟩ := hs
  rw [hSI]
  exact ⟨substituteByte_inverse hS, substituteByte_of_inverse hS⟩

/-- Two equal answers carry the same value, whatever its width. -/
theorem eq_of_answered_eq {w : Nat} (hw : w ≤ 128) {x y : BitVec w}
    (h : (.next (answered 0x00 (x.setWidth 128) s) : Outcome) = .next (answered 0x00 (y.setWidth 128) s)) : x = y := by
  injection h with h
  have hword := List.append_cancel_left (congrArg State.responses h)
  injection hword with hword
  have hdata := congrArg dataField hword
  rw [dataField_append, dataField_append] at hdata
  rw [← extractLsb'_setWidth hw x, hdata, extractLsb'_setWidth hw y]

end Transforms

/-- Settles O15: `S` is a permutation, so its lookup is injective. -/
theorem subnReturnsEntry : Obligations.SubnReturnsEntry := fun s n hs =>
  ⟨exec_subn hs n, fun _ hm => (isPerm_iff_injective s.S).mp hs.1 hm⟩

/-- Settles O17: the two nibbles of `substituteByte` are written out. -/
theorem subSubstitutesBothNibbles : Obligations.SubSubstitutesBothNibbles := fun _ b hs => exec_sub hs b

/-- Settles O18: the same through `SI`. -/
theorem isubSubstitutesThroughInverse : Obligations.IsubSubstitutesThroughInverse := fun _ b hs => exec_isub hs b

/-- Settles O24: the four transforms answer with lookups that are inverse to each other, and a map with a left inverse is injective. -/
theorem substitutionsUndoEachOther : Obligations.SubstitutionsUndoEachOther := by
  intro s hs
  obtain ⟨hnibble, hnibble'⟩ := lookup_S_SI_inverse hs
  obtain ⟨hbyte, hbyte'⟩ := substituteByte_S_SI_inverse hs
  refine ⟨fun n => ⟨_, exec_subn hs n, ?_⟩, fun m => ⟨_, exec_isubn hs m, ?_⟩, fun b => ⟨_, exec_sub hs b, ?_⟩,
    fun c => ⟨_, exec_isub hs c, ?_⟩, fun n m h => ?_, fun b c h => ?_⟩
  · rw [exec_isubn hs, hnibble]
  · rw [exec_subn hs, hnibble']
  · rw [exec_isub hs, hbyte]
  · rw [exec_sub hs, hbyte']
  · rw [exec_subn hs, exec_subn hs] at h
    exact hnibble.injective (eq_of_answered_eq (by decide) h)
  · rw [exec_sub hs, exec_sub hs] at h
    exact hbyte.injective (eq_of_answered_eq (by decide) h)

/-! ## The default table (R32, R88, R91) -/

/-- The default substitution table is its own inverse (R34). -/
theorem SI_eq_S_of_default {s : State} (hs : TablesInv s) (hS : s.S = Config.sDefault) : s.SI = s.S := by
  obtain ⟨_, hSI, _⟩ := hs
  rw [hSI, hS, ← siDefault_eq]
  rfl

/-- The default table flips the low bit of a nibble (R32). -/
theorem lookup_sDefault (n : Nibble) : lookup Config.sDefault n = n ^^^ 1 := resetLeavesDefaultTables.2.1 n

/-- Through the default table a byte has the low bit of each nibble flipped (R91). -/
theorem substituteByte_sDefault (b : Byte) : substituteByte Config.sDefault b = b ^^^ 0x11 := by
  calc substituteByte Config.sDefault b = (highNibble b ^^^ 1) ++ (lowNibble b ^^^ 1) := by
        rw [substituteByte, lookup_sDefault, lookup_sDefault]
    _ = (highNibble b ++ lowNibble b) ^^^ ((1 : Nibble) ++ (1 : Nibble)) := BitVec.xor_append.symm
    _ = b ^^^ 0x11 := by rw [high_append_low]; rfl

/-- Settles O16: the default table is its own inverse, so the two commands look up the same entry. -/
theorem isubnReturnsInverseEntry : Obligations.IsubnReturnsInverseEntry := by
  intro s n hs
  refine ⟨exec_isubn hs n, fun hS => ?_⟩
  rw [exec_isubn hs, exec_subn hs, SI_eq_S_of_default hs hS]

/-- Settles O25: both tables are the default one, and flipping twice gives the byte back. -/
theorem defaultSubstitutionFlipsLowBits : Obligations.DefaultSubstitutionFlipsLowBits := by
  intro s hs (hS : s.S = Config.sDefault)
  have hsub (b : Byte) : exec (.sub b) s = .next (answered 0x00 ((b ^^^ 0x11).setWidth 128) s) := by
    rw [exec_sub hs, hS, substituteByte_sDefault]
  refine ⟨fun n => ?_, fun b => ⟨hsub b, ?_, ?_, ?_⟩⟩
  · rw [exec_subn hs, hS, lookup_sDefault]
  · rw [exec_isub hs, SI_eq_S_of_default hs hS, hS, substituteByte_sDefault]
  · rw [hsub, BitVec.xor_assoc, BitVec.xor_self, BitVec.xor_zero]
  · simp

/-- Settles O22: the two tables are written whatever they were, so writing them again changes neither. -/
theorem rstsRestoresDefault : Obligations.RstsRestoresDefault := fun s => ⟨restoreS s, rfl, rfl, rfl⟩

/-! ## Whole-table loads and the read-out (R85, R86, R89) -/

/-- A valid candidate is installed with its inverse and nothing else changes: what `SETS` and `LDS` share. -/
theorem loadS_installs {vs : List Byte} (h : PermSeq 16 vs) (e : Status) (s : State) :
    ∃ S' SI' : Table 4, (∀ i : Nibble, lookup S' i = (vs.getD i.toNat 0).extractLsb' 0 4) ∧
      (∀ i : Nibble, lookup SI' (lookup S' i) = i) ∧
      loadS e vs s = .next (answered 0x00 0 { s with S := S', SI := SI' }) := by
  have hperm : IsPerm (tableOfSlots 4 vs) := isPerm_tableOfSlots (w := 4) (by decide) h
  refine ⟨tableOfSlots 4 vs, inverseTable (tableOfSlots 4 vs), fun i => ?_, lookup_inverseTable_lookup hperm, loadS_of_perm h⟩
  rw [lookup_tableOfSlots, BitVec.setWidth_eq_extractLsb' (by decide)]

/-- Settles O19: `SETS` is a load that fails with InvalidTable. -/
theorem setsReplacesTableOrFails : Obligations.SetsReplacesTableOrFails := fun s _ =>
  ⟨fun h => loadS_installs h .invalidTable s, fun h => loadS_of_not_perm h⟩

/-- Settles O20: `LDS` is the same load, failing with Format; the failure status plays no part in a success. -/
theorem ldsLoadsTableOrFails : Obligations.LdsLoadsTableOrFails := fun s _ =>
  ⟨fun h => ⟨(loadS_of_perm h).trans (loadS_of_perm h).symm, loadS_installs h .format s⟩, fun h => loadS_of_not_perm h⟩

/-- Settles O23: the payload's slots are the entries; where they are a permutation, loading them installs `S` with its inverse, which
is `SI`. -/
theorem rdsReturnsEntriesThatLoadBack : Obligations.RdsReturnsEntriesThatLoadBack := by
  intro s
  refine ⟨tablePayload s.S, rfl, slot_tablePayload (w := 4) (by decide) s.S, ?_⟩
  rintro ⟨hS, hSI, _⟩ u
  rw [hSI]
  exact ⟨loadS_slots_tablePayload hS .format u, loadS_slots_tablePayload hS .invalidTable u⟩

/-! ## The draws (R87, R105) -/

section Draws

variable {w : Nat}

/-- The inverse of a drawn table undoes the draw. -/
theorem lookup_inverseTable_tableOfDraw (pi : Equiv.Perm (BitVec w)) (x : BitVec w) :
    lookup (inverseTable (tableOfDraw pi)) (pi x) = x := by
  rw [← lookup_tableOfDraw pi x, lookup_inverseTable_lookup (isPerm_tableOfDraw pi)]

/-- The lookup of a permutation table is a bijection, and that bijection is the draw that gives the table. -/
theorem isPerm_iff_tableOfDraw (t : Table w) : IsPerm t ↔ ∃ pi : Equiv.Perm (BitVec w), tableOfDraw pi = t := by
  constructor
  · intro h
    have hbij : Function.Bijective (lookup t) := ((isPerm_iff_injective t).mp h).bijective_of_finite
    exact ⟨Equiv.ofBijective (lookup t) hbij, table_ext fun x => lookup_tableOfDraw _ x⟩
  · rintro ⟨pi, rfl⟩
    exact isPerm_tableOfDraw pi

end Draws

/-- Settles O37: one equivalence for every width. -/
theorem drawsAreExactlyThePermutations : Obligations.DrawsAreExactlyThePermutations :=
  ⟨isPerm_iff_tableOfDraw, isPerm_iff_tableOfDraw⟩

/-- Settles O36: the operations write the table of the draw with its inverse. -/
theorem everyDrawIsInstalled : Obligations.EveryDrawIsInstalled := fun _ =>
  ⟨rfl, rfl,
    fun pi => ⟨tableOfDraw pi, _, lookup_tableOfDraw pi, lookup_inverseTable_tableOfDraw pi, rfl⟩,
    fun pi => ⟨tableOfDraw pi, _, lookup_tableOfDraw pi, lookup_inverseTable_tableOfDraw pi, rfl⟩⟩

/-- Settles O21: the table of the draw that comes next, which the draw counter alone selects. -/
theorem rndsInstallsSomePermutation : Obligations.RndsInstallsSomePermutation := by
  intro s
  have hperm := isPerm_tableOfDraw (Config.draw16 s.draws)
  refine ⟨_, _, hperm, lookup_inverseTable_lookup hperm, fun r hr => ?_⟩
  rw [← hr]
  rfl

end Sys2Proof.Proofs

/-! PROOFS. The permutation statements (41_permutation): the two transforms bit by bit, whole-table loads and read-outs of `P`, the draw and
the default table. -/

namespace Sys2Proof.Proofs

open Sys2Proof.Machine Sys2Proof.Laws

/-! ## Scattering a byte through a permutation (R100, R101, R108) -/

section Scatter

variable {t : Table 3}

/-- A byte without 1 bits has none to scatter, whatever the table. -/
theorem scatterByte_zero (t : Table 3) : scatterByte t 0x00 = 0x00 := by
  refine byte_ext fun j => ?_
  rw [Bool.eq_iff_iff, getLsbD_scatterByte]
  simp

/-- A permutation has a source bit for every position. -/
theorem scatterByte_allOnes (h : IsPerm t) : scatterByte t 0xFF = 0xFF := by
  have hones (j : BitPos) : (0xFF : Byte).getLsbD j.toNat = true := by
    revert j
    decide
  refine byte_ext fun j => ?_
  rw [getLsbD_scatterByte_gather h, hones, hones]

/-- The bits of a one-hot byte. -/
theorem getLsbD_oneHot (i j : BitPos) : (1#8 <<< i.toNat).getLsbD j.toNat = true ↔ j = i := by
  revert i j
  decide

/-- The one set bit moves to its destination. -/
theorem scatterByte_oneHot (t : Table 3) (i : BitPos) : scatterByte t (1#8 <<< i.toNat) = 1#8 <<< (lookup t i).toNat := by
  refine byte_ext fun j => ?_
  rw [Bool.eq_iff_iff, getLsbD_scatterByte, getLsbD_oneHot]
  simp only [getLsbD_oneHot, exists_eq_left]
  exact eq_comm

theorem scatterByte_or (h : IsPerm t) (x y : Byte) : scatterByte t (x ||| y) = scatterByte t x ||| scatterByte t y := by
  refine byte_ext fun j => ?_
  simp only [BitVec.getLsbD_or, getLsbD_scatterByte_gather h]

theorem scatterByte_and (h : IsPerm t) (x y : Byte) : scatterByte t (x &&& y) = scatterByte t x &&& scatterByte t y := by
  refine byte_ext fun j => ?_
  simp only [BitVec.getLsbD_and, getLsbD_scatterByte_gather h]

/-- Scattering through a permutation and then through its inverse gives the byte back. -/
theorem scatterByte_inverse (h : IsPerm t) (b : Byte) : scatterByte (inverseTable t) (scatterByte t b) = b := by
  refine byte_ext fun j => ?_
  rw [getLsbD_scatterByte_inverse h, getLsbD_scatterByte_lookup h]

/-- The other order of R108. -/
theorem scatterByte_of_inverse (h : IsPerm t) (b : Byte) : scatterByte t (scatterByte (inverseTable t) b) = b := by
  refine byte_ext fun j => ?_
  rw [getLsbD_scatterByte_gather h, getLsbD_scatterByte_inverse h, lookup_lookup_inverseTable h]

/-- The entries of a permutation, in index order, are the numbers below the table's size in some order (R15). -/
theorem perm_range_of_isPerm {w : Nat} {tab : Table w} (h : IsPerm tab) :
    ((List.range (2 ^ w)).map fun i => (lookup tab (BitVec.ofNat w i)).toNat).Perm (List.range (2 ^ w)) := by
  refine (List.subperm_of_subset ?nodup ?subset).perm_of_length_le (by simp)
  case nodup =>
    refine List.Nodup.map_on (fun i hi k hk hik => ?_) List.nodup_range
    have hofNat : BitVec.ofNat w i = BitVec.ofNat w k :=
      (isPerm_iff_injective tab).mp h (BitVec.eq_of_toNat_eq hik)
    simpa [Nat.mod_eq_of_lt (List.mem_range.mp hi), Nat.mod_eq_of_lt (List.mem_range.mp hk)] using
      congrArg BitVec.toNat hofNat
  case subset =>
    intro n hn
    obtain ⟨i, _, rfl⟩ := List.mem_map.mp hn
    exact List.mem_range.mpr (lookup tab _).isLt

/-- The number of 1 bits is kept: counting the scattered bits at the destinations is counting the source bits. -/
theorem countP_scatterByte (h : IsPerm t) (b : Byte) :
    (List.range 8).countP (fun j => (scatterByte t b).getLsbD j) = (List.range 8).countP (fun i => b.getLsbD i) := by
  have hperm : ((List.range 8).map fun i => (lookup t (BitVec.ofNat 3 i)).toNat).Perm (List.range 8) :=
    perm_range_of_isPerm h
  rw [← hperm.countP_eq, List.countP_map]
  refine List.countP_congr fun i hi => ?_
  have hsource : (BitVec.ofNat 3 i).toNat = i := Nat.mod_eq_of_lt (List.mem_range.mp hi)
  rw [Function.comp_apply, getLsbD_scatterByte_lookup h, hsource]

end Scatter

/-! ## What the transforms answer -/

section PermutationTransforms

variable {s : State}

/-- `PERM` answers with the byte scattered through `P` (R100). -/
theorem exec_perm (hs : TablesInv s) (b : Byte) :
    exec (.perm b) s = .next (answered 0x00 ((scatterByte s.P b).setWidth 128) s) :=
  transform_of_inv hs _

/-- `IPERM` answers with the byte scattered through `PI` (R101). -/
theorem exec_iperm (hs : TablesInv s) (b : Byte) :
    exec (.iperm b) s = .next (answered 0x00 ((scatterByte s.PI b).setWidth 128) s) :=
  transform_of_inv hs _

/-- `PI` undoes `P` on the bytes, and `P` undoes `PI`. -/
theorem scatterByte_P_PI_inverse (hs : TablesInv s) :
    Function.LeftInverse (scatterByte s.PI) (scatterByte s.P) ∧
      Function.RightInverse (scatterByte s.PI) (scatterByte s.P) := by
  obtain ⟨_, _, hP, hPI⟩ := hs
  rw [hPI]
  exact ⟨scatterByte_inverse hP, scatterByte_of_inverse hP⟩

end PermutationTransforms

/-- Settles O26: the scatter through a permutation and its gather form. -/
theorem permScattersBits : Obligations.PermScattersBits := by
  intro s b hs
  refine ⟨_, exec_perm hs b, ?_⟩
  obtain ⟨_, _, hP, hPI⟩ := hs
  rw [hPI]
  exact ⟨getLsbD_scatterByte_lookup hP b, getLsbD_scatterByte_gather hP b⟩

/-- Settles O27: the gather form through `P` gives the scatter form at `j = PI[i]`, where `P[PI[i]] = i`. -/
theorem ipermScattersThroughInverse : Obligations.IpermScattersThroughInverse := by
  intro s b hs
  refine ⟨_, exec_iperm hs b, ?_⟩
  obtain ⟨_, _, hP, hPI⟩ := hs
  rw [hPI]
  refine ⟨fun i => ?_, getLsbD_scatterByte_inverse hP b⟩
  rw [getLsbD_scatterByte_inverse hP, lookup_lookup_inverseTable hP]

/-- Settles O28: each corner case is a fact about scattering through `P`. -/
theorem permActsOnEachBit : Obligations.PermActsOnEachBit := by
  intro s hs
  have ⟨_, _, hP, _⟩ := hs
  refine ⟨?_, ?_, fun i => ?_, fun x y => ⟨_, _, exec_perm hs x, exec_perm hs y, ?_, ?_⟩⟩
  · rw [exec_perm hs, scatterByte_zero]
    rfl
  · rw [exec_perm hs, scatterByte_allOnes hP]
    rfl
  · rw [exec_perm hs, scatterByte_oneHot]
  · rw [exec_perm hs, scatterByte_or hP]
  · rw [exec_perm hs, scatterByte_and hP]

/-- Settles O34: the two transforms scatter through tables that undo each other, a map with a left inverse is injective, and scattering
keeps the number of 1 bits. -/
theorem permutationsUndoEachOther : Obligations.PermutationsUndoEachOther := by
  intro s hs
  have ⟨_, _, hP, _⟩ := hs
  obtain ⟨hleft, hright⟩ := scatterByte_P_PI_inverse hs
  refine ⟨fun b => ⟨_, exec_perm hs b, ?_, countP_scatterByte hP b⟩, fun c => ⟨_, exec_iperm hs c, ?_⟩,
    fun b c h => ?_⟩
  · rw [exec_iperm hs, hleft]
  · rw [exec_perm hs, hright]
  · rw [exec_perm hs, exec_perm hs] at h
    exact hleft.injective (eq_of_answered_eq (by decide) h)

/-! ## The default table (R33, R34, R106, R109) -/

/-- Settles O32: the two tables are written whatever they were, so writing them again changes neither. -/
theorem rstpRestoresDefault : Obligations.RstpRestoresDefault := fun s => ⟨restoreP s, rfl, rfl, rfl⟩

/-- Under the default `P`, `PI` is the table R34 lists. -/
theorem PI_of_default {s : State} (hs : TablesInv s) (hP : s.P = Config.pDefault) : s.PI = Config.piDefault := by
  obtain ⟨_, _, _, hPI⟩ := hs
  rw [hPI, hP, piDefault_eq]

/-- Settles O35: the images are scatters through the two default tables. -/
theorem defaultPermutationOneHotImages : Obligations.DefaultPermutationOneHotImages := by
  intro s hs (hP : s.P = Config.pDefault)
  have hforward : ∀ p ∈ [(0x01#8, 0x02#8), (0x02, 0x20), (0x04, 0x04), (0x08, 0x01), (0x10, 0x08), (0x20, 0x80),
      (0x40, 0x10), (0x80, 0x40)], scatterByte Config.pDefault p.1 = p.2 :=
    List.map_inj_left.mp (by decide)
  have hinverse : ∀ p ∈ [(0x01#8, 0x08#8), (0x02, 0x01), (0x04, 0x04), (0x08, 0x10), (0x10, 0x40), (0x20, 0x02),
      (0x40, 0x80), (0x80, 0x20)], scatterByte Config.piDefault p.1 = p.2 :=
    List.map_inj_left.mp (by decide)
  refine ⟨fun p hp => ?_, fun p hp => ?_, ?_⟩
  · rw [exec_perm hs, hP, hforward p hp]
  · rw [exec_iperm hs, PI_of_default hs hP, hinverse p hp]
  · rw [exec_perm hs, hP, hforward (0x02, 0x20) (by decide)]
    rfl

/-! ## Whole-table loads, the read-out and the draw (R103 to R105, R107) -/

/-- A valid candidate is installed with its inverse and nothing else changes: what `SETP` and `LDP` share. -/
theorem loadP_installs {qs : List Byte} (h : PermSeq 8 qs) (e : Status) (s : State) :
    ∃ P' PI' : Table 3, (∀ i : BitPos, lookup P' i = (qs.getD i.toNat 0).extractLsb' 0 3) ∧
      (∀ i : BitPos, lookup PI' (lookup P' i) = i) ∧
      loadP e qs s = .next (answered 0x00 0 { s with P := P', PI := PI' }) := by
  have hperm : IsPerm (tableOfSlots 3 qs) := isPerm_tableOfSlots (w := 3) (by decide) h
  refine ⟨tableOfSlots 3 qs, inverseTable (tableOfSlots 3 qs), fun i => ?_, lookup_inverseTable_lookup hperm, loadP_of_perm h⟩
  rw [lookup_tableOfSlots, BitVec.setWidth_eq_extractLsb' (by decide)]

/-- Settles O29: `SETP` is a load that fails with InvalidTable. -/
theorem setpReplacesTableOrFails : Obligations.SetpReplacesTableOrFails := fun s _ =>
  ⟨fun h => loadP_installs h .invalidTable s, fun h => loadP_of_not_perm h⟩

/-- Settles O30: `LDP` is the same load, failing with Format; the failure status plays no part in a success. -/
theorem ldpLoadsTableOrFails : Obligations.LdpLoadsTableOrFails := fun s _ =>
  ⟨fun h => ⟨(loadP_of_perm h).trans (loadP_of_perm h).symm, loadP_installs h .format s⟩, fun h => loadP_of_not_perm h⟩

/-- Settles O31: the table of the draw that comes next, which the draw counter alone selects. -/
theorem rndpInstallsSomePermutation : Obligations.RndpInstallsSomePermutation := by
  intro s
  have hperm := isPerm_tableOfDraw (Config.draw8 s.draws)
  refine ⟨_, _, hperm, lookup_inverseTable_lookup hperm, fun r hr => ?_⟩
  rw [← hr]
  rfl

/-- The payload of the permutation table leaves slots 8 to 15 zero (R107). -/
theorem tablePayload_upper_half (tab : Table 3) : (tablePayload tab).extractLsb' 64 64 = 0 := by
  apply BitVec.eq_of_getLsbD_eq
  intro i hi
  have hslot : (tab.toList.map (BitVec.setWidth 8)).getD ((64 + i) / 8) 0 = 0 :=
    List.getD_eq_default _ _ (by rw [List.length_map, Vector.length_toList]; omega)
  rw [BitVec.getLsbD_extractLsb', tablePayload, getLsbD_packSlots, hslot]
  simp

/-- Settles O33: the payload's slots are the entries; where they are a permutation, loading them installs `P` with its inverse, which
is `PI`. -/
theorem rdpReturnsEntriesThatLoadBack : Obligations.RdpReturnsEntriesThatLoadBack := by
  intro s
  refine ⟨tablePayload s.P, rfl, slot_tablePayload (w := 3) (by decide) s.P, tablePayload_upper_half s.P, ?_⟩
  rintro ⟨_, _, hP, hPI⟩ u
  rw [hPI]
  exact ⟨loadP_slots_tablePayload hP .format u, loadP_slots_tablePayload hP .invalidTable u⟩

end Sys2Proof.Proofs

/-! PROOFS. The cascade statements (42_cascade): the two cascades stage by stage, and that they undo each other. -/

namespace Sys2Proof.Proofs

open Sys2Proof.Machine Sys2Proof.Laws

/-! ## What the cascades answer and how they undo each other (R120 to R122) -/

section Cascades

variable {s : State}

/-- The inverse table of a permutation is a permutation: the permutation undoes its lookup (R15). -/
theorem isPerm_inverseTable {w : Nat} {t : Table w} (h : IsPerm t) : IsPerm (inverseTable t) :=
  (isPerm_iff_injective _).mpr (Function.LeftInverse.injective (lookup_lookup_inverseTable h))

/-- A response leaves the invariants as they were: a second command runs over the same tables (R123). -/
theorem tablesInv_answered {st : Byte} {dat : Arg} (hs : TablesInv s) : TablesInv (answered st dat s) := hs

/-- `ENC` answers with the byte substituted through `S` and then scattered through `P` (R120). -/
theorem exec_enc (hs : TablesInv s) (b : Byte) :
    exec (.enc b) s = .next (answered 0x00 ((scatterByte s.P (substituteByte s.S b)).setWidth 128) s) :=
  transform_of_inv hs _

/-- `DEC` answers with the byte scattered through `PI` and then substituted through `SI` (R121). -/
theorem exec_dec (hs : TablesInv s) (b : Byte) :
    exec (.dec b) s = .next (answered 0x00 ((substituteByte s.SI (scatterByte s.PI b)).setWidth 128) s) :=
  transform_of_inv hs _

/-- The inverse cascade undoes the cascade (R122): the two permutation stages meet and cancel, then the two substitution stages. -/
theorem inverse_cascade_of_cascade (hs : TablesInv s) (b : Byte) :
    substituteByte s.SI (scatterByte s.PI (scatterByte s.P (substituteByte s.S b))) = b := by
  rw [(scatterByte_P_PI_inverse hs).1, (substituteByte_S_SI_inverse hs).1]

/-- The cascade undoes the inverse cascade (R122): here the substitution stages meet first. -/
theorem cascade_of_inverse_cascade (hs : TablesInv s) (c : Byte) :
    scatterByte s.P (substituteByte s.S (substituteByte s.SI (scatterByte s.PI c))) = c := by
  rw [(substituteByte_S_SI_inverse hs).2, (scatterByte_P_PI_inverse hs).2]

/-- A command that answers an invertible function of its operand gives each byte as its answer for exactly one operand. -/
theorem existsUnique_operand_of_inverse {f : Byte → Byte} (g : Byte → Byte) {command : Byte → Instr}
    (hexec : ∀ b, exec (command b) s = .next (answered 0x00 ((f b).setWidth 128) s))
    (hleft : Function.LeftInverse g f) (hright : Function.RightInverse g f) (c : Byte) :
    ∃! b, exec (command b) s = .next (answered 0x00 (c.setWidth 128) s) := by
  refine ⟨g c, ?answers, fun b hb => ?unique⟩
  case answers => exact (hexec (g c)).trans (by rw [hright])
  case unique =>
    have hfb : f b = c := eq_of_answered_eq (by decide) ((hexec b).symm.trans hb)
    rw [← hfb, hleft]

end Cascades

/-- Settles O38: `ENC` is the two stages composed, and a response leaves the tables the second stage reads as they were. -/
theorem encSubstitutesThenPermutes : Obligations.EncSubstitutesThenPermutes := by
  intro s b hs
  have ⟨_, _, hP, _⟩ := hs
  exact ⟨substituteByte s.S b, scatterByte s.P (substituteByte s.S b), rfl, getLsbD_scatterByte_lookup hP _,
    exec_enc hs b, exec_sub hs b, exec_perm (tablesInv_answered hs) _⟩

/-- Settles O39: the inverse stages in the other order; `PI` is a permutation too, so bit `i` lands at `PI[i]`. -/
theorem decInversePermutesThenInverseSubstitutes : Obligations.DecInversePermutesThenInverseSubstitutes := by
  intro s b hs
  have hPI : IsPerm s.PI := by
    obtain ⟨_, _, hP, hPI⟩ := hs
    exact hPI ▸ isPerm_inverseTable hP
  exact ⟨scatterByte s.PI b, substituteByte s.SI (scatterByte s.PI b), getLsbD_scatterByte_lookup hPI b, rfl,
    exec_dec hs b, exec_iperm hs b, exec_isub (tablesInv_answered hs) _⟩

/-- Settles O40: the cascades answer with two functions that undo each other on both sides, hence bijections. -/
theorem encAndDecAreInverseBijections : Obligations.EncAndDecAreInverseBijections := by
  intro s hs
  have hdecEnc := inverse_cascade_of_cascade hs
  have hencDec := cascade_of_inverse_cascade hs
  refine ⟨fun b => ⟨_, exec_enc hs b, ?_⟩, fun c => ⟨_, exec_dec hs c, ?_⟩,
    existsUnique_operand_of_inverse (fun c => substituteByte s.SI (scatterByte s.PI c)) (exec_enc hs) hdecEnc hencDec,
    existsUnique_operand_of_inverse (fun b => scatterByte s.P (substituteByte s.S b)) (exec_dec hs) hencDec hdecEnc⟩
  · rw [exec_dec (tablesInv_answered hs), hdecEnc]
  · rw [exec_enc (tablesInv_answered hs), hencDec]

end Sys2Proof.Proofs

/-! PROOFS. The host persistence statements (43_host_persistence): what the host sends or reports for a path and a file, which records fill
the slots of a command word, and that a saved record loads back. -/

namespace Sys2Proof.Proofs

open Sys2Proof.Machine Sys2Proof.Laws

/-! ## What the host does with a path and a file (R137 to R139) -/

section Files

variable {path : List Char}

/-- A load of `S` from a path without the extension fails, whatever is stored there. -/
theorem loadCommandS_of_rejected (hp : pathAccepted path = false) (file : Option Record) :
    loadCommandS path file = .error .format := by
  simp [loadCommandS, hp]

/-- The same for `P`. -/
theorem loadCommandP_of_rejected (hp : pathAccepted path = false) (file : Option Record) :
    loadCommandP path file = .error .format := by
  simp [loadCommandP, hp]

/-- Neither table is saved over a path without the extension. -/
theorem saveCommands_of_rejected (hp : pathAccepted path = false) :
    saveCommandS path = .error .format ∧ saveCommandP path = .error .format := by
  simp [saveCommandS, saveCommandP, hp]

theorem loadCommandS_of_missing (hp : pathAccepted path = true) : loadCommandS path none = .error .notFound := by
  simp [loadCommandS, hp]

theorem loadCommandP_of_missing (hp : pathAccepted path = true) : loadCommandP path none = .error .notFound := by
  simp [loadCommandP, hp]

/-- A record without the field of its table is no record of that table (log entry 13): the load of `S`. -/
theorem loadCommandS_of_other_field (hp : pathAccepted path = true) :
    (∀ elements, loadCommandS path (some (.permutation elements)) = .error .format) ∧
      loadCommandS path (some .other) = .error .format := by
  simp [loadCommandS, hp]

/-- The same for the load of `P`. -/
theorem loadCommandP_of_other_field (hp : pathAccepted path = true) :
    (∀ entries, loadCommandP path (some (.constants entries)) = .error .format) ∧
      loadCommandP path (some .other) = .error .format := by
  simp [loadCommandP, hp]

/-- A substitution record that fills its slots is sent as one `LDS` of them. -/
theorem loadCommandS_of_slots {entries : List (List Char × Option Int)} {vs : List Byte} (hp : pathAccepted path = true)
    (h : slotsOfConstants entries = some vs) : loadCommandS path (some (.constants entries)) = .ok (encode (.lds vs)) := by
  simp [loadCommandS, hp, h]

/-- One that does not is refused by the host. -/
theorem loadCommandS_of_no_slots {entries : List (List Char × Option Int)} (hp : pathAccepted path = true)
    (h : slotsOfConstants entries = none) : loadCommandS path (some (.constants entries)) = .error .format := by
  simp [loadCommandS, hp, h]

/-- A permutation record that fills its slots is sent as one `LDP` of them. -/
theorem loadCommandP_of_slots {elements : List (Option Int)} {qs : List Byte} (hp : pathAccepted path = true)
    (h : slotsOfPermutation elements = some qs) :
    loadCommandP path (some (.permutation elements)) = .ok (encode (.ldp qs)) := by
  simp [loadCommandP, hp, h]

/-- One that does not is refused by the host. -/
theorem loadCommandP_of_no_slots {elements : List (Option Int)} (hp : pathAccepted path = true)
    (h : slotsOfPermutation elements = none) : loadCommandP path (some (.permutation elements)) = .error .format := by
  simp [loadCommandP, hp, h]

end Files

/-! ## Records of bytes fill their slots (R135, R136) -/

/-- Bytes, as integers, fill the slots with themselves. -/
theorem mapM_slotOfValue_bytes {α : Type} (f : α → Byte) (l : List α) :
    l.mapM (fun a => slotOfValue (some (Int.ofNat (f a).toNat))) = some (l.map f) := by
  simp only [slotOfValue_byte]
  exact List.mapM_pure

/-- A substitution record of sixteen bytes under the sixteen keys, in any order, fills slot `i` with the byte under key `i`. -/
theorem slotsOfConstants_of_bytes {entries : List (List Char × Option Int)} (f : Nat → Byte)
    (h : entries.Perm ((List.range 16).map fun i => (recordKey i, some (Int.ofNat (f i).toNat)))) :
    slotsOfConstants entries = some ((List.range 16).map f) :=
  (slotsOfConstants_of_perm _ h).trans (mapM_slotOfValue_bytes f _)

/-- A permutation record of eight bytes fills the slots with them. -/
theorem slotsOfPermutation_of_bytes {qs : List Byte} (hlen : qs.length = 8) :
    slotsOfPermutation (qs.map fun q => some (Int.ofNat q.toNat)) = some qs := by
  rw [slotsOfPermutation, if_pos (by simpa using hlen), List.mapM_map]
  exact (mapM_slotOfValue_bytes id qs).trans (by rw [List.map_id])

/-- A list is its members in index order. -/
theorem map_getD_range {vs : List Byte} {n : Nat} (hlen : vs.length = n) :
    ((List.range n).map fun i => vs.getD i 0) = vs := by
  subst hlen
  refine List.ext_getElem (by simp) fun i _ hi => ?_
  simp [hi]

/-- Settles O56: each record fills its slots with its bytes, and a record that fills its slots is sent. -/
theorem properRecordsAreSent : Obligations.ProperRecordsAreSent := by
  refine fun path hp => ⟨fun vs entries hlen hentries => ?_, fun qs hlen => ?_⟩
  · refine loadCommandS_of_slots hp ?_
    rw [slotsOfConstants_of_bytes _ hentries, map_getD_range hlen]
  · exact loadCommandP_of_slots hp (slotsOfPermutation_of_bytes hlen)

/-! ## Malformed records fill none (R139) -/

/-- R139's causes for a substitution record: one that fills its slots has sixteen entries, whose keys are the sixteen in some order,
and a value that fills a slot in each. -/
theorem slotsOfConstants_of_malformed {entries : List (List Char × Option Int)}
    (h : entries.length ≠ 16 ∨ (∃ i < 16, ∀ e ∈ entries, e.1 ≠ recordKey i) ∨
      (∃ e ∈ entries, ∀ i < 16, e.1 ≠ recordKey i) ∨ (∃ e ∈ entries, e.2 = none) ∨
      (∃ e ∈ entries, ∃ v : Int, e.2 = some v ∧ (v < 0 ∨ 255 < v))) :
    slotsOfConstants entries = none := by
  by_contra hslots
  obtain ⟨hlen, hkeys, hvalues⟩ := slotsOfConstants_ne_none hslots
  rcases h with hcount | ⟨i, hi, hmissing⟩ | ⟨e, he, hextra⟩ | ⟨e, he, hnone⟩ | ⟨e, he, v, hv, hrange⟩
  · exact hcount hlen
  · have hkey : recordKey i ∈ entries.map Prod.fst :=
      hkeys.mem_iff.mpr (List.mem_map_of_mem (List.mem_range.mpr hi))
    obtain ⟨e, he, hei⟩ := List.mem_map.mp hkey
    exact hmissing e he hei
  · obtain ⟨i, hi, hei⟩ := List.mem_map.mp (hkeys.mem_iff.mp (List.mem_map_of_mem he))
    exact hextra i (List.mem_range.mp hi) hei.symm
  · exact hvalues e he ((slotOfValue_eq_none_iff _).mpr (.inl hnone))
  · exact hvalues e he ((slotOfValue_eq_none_iff _).mpr (.inr ⟨v, hv, hrange⟩))

/-- R139's causes for a permutation record. -/
theorem slotsOfPermutation_of_malformed {elements : List (Option Int)}
    (h : elements.length ≠ 8 ∨ none ∈ elements ∨ (∃ v : Int, some v ∈ elements ∧ (v < 0 ∨ 255 < v))) :
    slotsOfPermutation elements = none := by
  rw [slotsOfPermutation_eq_none_iff]
  rcases h with hcount | hnone | ⟨v, hv, hrange⟩
  · exact .inl hcount
  · exact .inr ⟨none, hnone, (slotOfValue_eq_none_iff _).mpr (.inl rfl)⟩
  · exact .inr ⟨some v, hv, (slotOfValue_eq_none_iff _).mpr (.inr ⟨v, rfl, hrange⟩)⟩

/-- Settles O55: a rejected path and a missing file come before the record is looked at; a malformed record fills no slots. -/
theorem rejectedFilesSendNoCommand : Obligations.RejectedFilesSendNoCommand := by
  refine fun path => ⟨fun hp file => ?rejected, fun hp => ?accepted⟩
  case rejected =>
    exact ⟨loadCommandS_of_rejected hp file, loadCommandP_of_rejected hp file, saveCommands_of_rejected hp⟩
  case accepted =>
    obtain ⟨hpermutation, hotherS⟩ := loadCommandS_of_other_field hp
    obtain ⟨hconstants, hotherP⟩ := loadCommandP_of_other_field hp
    exact ⟨loadCommandS_of_missing hp, loadCommandP_of_missing hp,
      fun _ h => loadCommandS_of_no_slots hp (slotsOfConstants_of_malformed h),
      fun _ h => loadCommandP_of_no_slots hp (slotsOfPermutation_of_malformed h),
      hpermutation, hconstants, hotherS, hotherP⟩

/-! ## Saved records load back (R138, R140) -/

/-- The word of a well-formed command runs that command (R61). -/
theorem runWord_encode {i : Instr} (hwf : i.wf = true) (s : State) : runWord (encode i) s = exec i s :=
  runWord_of_ok (decodeOfEncodeIsIdentity i hwf) s

section SavedRecords

variable {path : List Char}

/-- What is saved of a response, whichever it is, is loaded as the `LDS` of its sixteen slots. -/
theorem loadCommandS_savedRecordS (hp : pathAccepted path = true) (rw : ResponseWord) :
    loadCommandS path (some (savedRecordS rw)) = .ok (encode (.lds (slots 16 (dataField rw)))) :=
  loadCommandS_of_slots hp (slotsOfConstants_of_bytes (slot (dataField rw)) (.refl _))

/-- The same for `P`: the `LDP` of its first eight slots. -/
theorem loadCommandP_savedRecordP (hp : pathAccepted path = true) (rw : ResponseWord) :
    loadCommandP path (some (savedRecordP rw)) = .ok (encode (.ldp (slots 8 (dataField rw)))) := by
  have hslots := slotsOfPermutation_of_bytes (qs := slots 8 (dataField rw)) (by simp [slots])
  rw [slots, List.map_map] at hslots
  exact loadCommandP_of_slots hp hslots

end SavedRecords

/-- Settles O54: the record is loaded as the command with the slots of the read-out's data, which restores the table. -/
theorem savedRecordsLoadBack : Obligations.SavedRecordsLoadBack := by
  intro s u path hs hp
  obtain ⟨dS, hrds, _, hlds⟩ := rdsReturnsEntriesThatLoadBack s
  obtain ⟨dP, hrdp, _, _, hldp⟩ := rdpReturnsEntriesThatLoadBack s
  refine ⟨⟨_, _, hrds, loadCommandS_savedRecordS hp _, ?_⟩, ⟨_, _, hrdp, loadCommandP_savedRecordP hp _, ?_⟩⟩
  · rw [dataField_append, runWord_encode (by simp [Instr.wf, slots])]
    exact (hlds hs u).1
  · rw [dataField_append, runWord_encode (by simp [Instr.wf, slots])]
    exact (hldp hs u).1

end Sys2Proof.Proofs

/-! PROOFS. The exception statements (60_exceptions): the order of the checks, that an error changes nothing, and the refusal of a
transform in a state that breaks an invariant. -/

namespace Sys2Proof.Proofs

open Sys2Proof.Machine Sys2Proof.Laws

/-! ## The two ways a command word is answered (R150, R157, R166) -/

section Answers

variable {s t : State} {i : Instr} {cw : CommandWord}

/-- A command that answers ends with an error, data zero and nothing else changed, or with status OK. -/
theorem exec_fails_or_succeeds (h : exec i s = .next t) :
    (∃ e, t = respond e 0 s) ∨ ∃ dat u, u.responses = s.responses ∧ t = respond .ok dat u := by
  cases exec_next h with
  | read dat _ ht => exact .inr ⟨dat, s, rfl, ht⟩
  | failed e _ _ _ ht => exact .inl ⟨e, ht⟩
  | wroteS tab k _ _ _ _ ht => exact .inr ⟨0, writeS tab { s with draws := k }, rfl, ht⟩
  | wroteP tab k _ _ _ _ ht => exact .inr ⟨0, writeP tab { s with draws := k }, rfl, ht⟩

/-- The same of any command word: one that does not decode ends with an error. -/
theorem runWord_fails_or_succeeds (h : runWord cw s = .next t) :
    (∃ e, t = respond e 0 s) ∨ ∃ dat u, u.responses = s.responses ∧ t = respond .ok dat u := by
  cases hd : decode cw with
  | ok i => exact exec_fails_or_succeeds (runWord_of_ok hd s ▸ h)
  | error e =>
    rw [runWord_of_error hd] at h
    cases h
    exact .inl ⟨_, rfl⟩

/-- The status and the data of a response can be read off the responses after it. -/
theorem eq_of_append_responseWord {rs : List ResponseWord} {e : Status} {st : Byte} {dat d : Arg}
    (h : rs ++ [responseWord e d] = rs ++ [st ++ dat]) : statusCode e = st ∧ d = dat := by
  have hword : statusCode e ++ d = (st ++ dat : ResponseWord) := by simpa [responseWord] using h
  exact ⟨by simpa using congrArg statusField hword, by simpa using congrArg dataField hword⟩

end Answers

/-- Settles O48: a word answered by a status other than OK ended with an error, and an error writes only its response. -/
theorem failuresChangeNothing : Obligations.FailuresChangeNothing := by
  intro s t cw rest st dat hm hstep hresp hst
  rw [step_of_command hm] at hstep
  rcases runWord_fails_or_succeeds hstep with ⟨e, rfl⟩ | ⟨d, u, hu, rfl⟩
  · obtain ⟨rfl, rfl⟩ := eq_of_append_responseWord hresp
    exact ⟨rfl, respond_eq_answered e 0 _⟩
  · rw [respond_responses, hu] at hresp
    exact absurd (eq_of_append_responseWord hresp).1.symm hst

/-! ## The order of the checks (R158) -/

/-- The status that the last check, the one of a candidate table, gives a command of row `c` with operand `arg` (R152, R153). -/
def candidateStatus (arg : Arg) : Command → Status
  | .sets => if PermSeq 16 (slots 16 arg) then .ok else .invalidTable
  | .setp => if PermSeq 8 (slots 8 arg) then .ok else .invalidTable
  | .lds => if PermSeq 16 (slots 16 arg) then .ok else .format
  | .ldp => if PermSeq 8 (slots 8 arg) then .ok else .format
  | .subn | .isubn | .sub | .isub | .rnds | .rsts | .rds | .perm | .iperm | .rndp | .rstp | .rdp | .enc | .dec => .ok

/-- The last two checks of R158, which name the loads by opcode, give the row's candidate status. -/
theorem statusCode_candidateStatus (arg : Arg) (c : Command) :
    (if (opcodeOf c = 0x14 ∧ ¬PermSeq 16 (slots 16 arg)) ∨ (opcodeOf c = 0x24 ∧ ¬PermSeq 8 (slots 8 arg)) then 0x01#8
      else if (opcodeOf c = 0x18 ∧ ¬PermSeq 16 (slots 16 arg)) ∨ (opcodeOf c = 0x28 ∧ ¬PermSeq 8 (slots 8 arg)) then 0x02#8
      else 0x00#8) = statusCode (candidateStatus arg c) := by
  cases c with
  | sets | lds =>
    by_cases h : PermSeq 16 (slots 16 arg)
    · simp [opcodeOf, candidateStatus, statusCode, eq_true h]
    · simp [opcodeOf, candidateStatus, statusCode, h]
  | setp | ldp =>
    by_cases h : PermSeq 8 (slots 8 arg)
    · simp [opcodeOf, candidateStatus, statusCode, eq_true h]
    · simp [opcodeOf, candidateStatus, statusCode, h]
  | subn | isubn | sub | isub | rnds | rsts | rds | perm | iperm | rndp | rstp | rdp | enc | dec =>
    simp [opcodeOf, candidateStatus, statusCode]

section CheckOrder

variable {s : State} {i : Instr}

/-- From a state with the invariants, every command but the four loads answers OK. -/
theorem exec_ok_of_not_load (hs : TablesInv s) (hi : commandOf i ∉ [.sets, .lds, .setp, .ldp]) :
    ∃ t dat, exec i s = .next t ∧ t.responses = s.responses ++ [responseWord .ok dat] := by
  obtain ⟨t, h⟩ := exec_answers hs i
  cases exec_next h with
  | read dat _ ht => exact ⟨t, dat, h, ht ▸ rfl⟩
  | failed e _ hc _ _ => exact absurd hc hi
  | wroteS tab k _ _ _ _ ht => exact ⟨t, 0, h, ht ▸ rfl⟩
  | wroteP tab k _ _ _ _ ht => exact ⟨t, 0, h, ht ▸ rfl⟩

/-- A load of `S` answers OK or its own error, as its candidate is valid or not. -/
theorem loadS_status (e : Status) (vs : List Byte) (s : State) :
    ∃ t dat, loadS e vs s = .next t ∧
      t.responses = s.responses ++ [responseWord (if PermSeq 16 vs then .ok else e) dat] := by
  split
  next h => exact ⟨_, 0, loadS_of_perm h, rfl⟩
  next h => exact ⟨_, 0, loadS_of_not_perm h, rfl⟩

/-- The same for `P`. -/
theorem loadP_status (e : Status) (qs : List Byte) (s : State) :
    ∃ t dat, loadP e qs s = .next t ∧
      t.responses = s.responses ++ [responseWord (if PermSeq 8 qs then .ok else e) dat] := by
  split
  next h => exact ⟨_, 0, loadP_of_perm h, rfl⟩
  next h => exact ⟨_, 0, loadP_of_not_perm h, rfl⟩

/-- A word of a row that passed the decoder's two checks is answered with the row's candidate status. -/
theorem exec_buildInstr_status (hs : TablesInv s) (arg : Arg) (c : Command) :
    ∃ t dat, exec (buildInstr arg c) s = .next t ∧
      t.responses = s.responses ++ [responseWord (candidateStatus arg c) dat] := by
  cases c with
  | sets => exact loadS_status .invalidTable _ s
  | lds => exact loadS_status .format _ s
  | setp => exact loadP_status .invalidTable _ s
  | ldp => exact loadP_status .format _ s
  | subn | isubn | sub | isub | rnds | rsts | rds | perm | iperm | rndp | rstp | rdp | enc | dec =>
    exact exec_ok_of_not_load hs (by simp)

end CheckOrder

/-- Settles O12: a word that fails one of the first two checks is of no row; any other is of one row only, and its status is that of
the row's candidate check. -/
theorem statusFollowsCheckOrder : Obligations.StatusFollowsCheckOrder := by
  rintro s _ rest op arg hs hm rfl
  by_cases hrow : ∃ c, opcodeOf c = op ∧ arg &&& reservedMask (formatOf c) = 0
  · obtain ⟨c, rfl, harg⟩ := hrow
    have hdefined : ¬∀ d ∈ allCommands, opcodeOf d ≠ opcodeOf c := fun h => h c (mem_allCommands c) rfl
    have hclear : ¬∃ d ∈ allCommands, opcodeOf d = opcodeOf c ∧ arg &&& reservedMask (formatOf d) ≠ 0 := by
      rintro ⟨d, _, hd, hset⟩
      exact hset (opcodeOf_injective hd ▸ harg)
    have hdecode : decode (opcodeOf c ++ arg) = .ok (buildInstr arg c) := by
      simpa only [argOf_append] using
        decode_of_row (opOf_append _ _).symm (by rwa [argOf_append] : argOf (opcodeOf c ++ arg) &&& _ = 0)
    rw [step_of_command hm, runWord_of_ok hdecode, if_neg hdefined, if_neg hclear, statusCode_candidateStatus]
    exact exec_buildInstr_status (s := { s with moves := rest }) hs arg c
  · have hstep : step s = .next (answered 0x04 0 { s with moves := rest }) := by
      refine step_of_no_row hm fun c hop harg => hrow ⟨c, ?_, ?_⟩
      · rwa [opOf_append] at hop
      · rwa [argOf_append] at harg
    refine ⟨_, 0, hstep, ?_⟩
    split
    next => rfl
    next hdefined =>
      push Not at hdefined
      obtain ⟨c, hc, hop⟩ := hdefined
      rw [if_pos ⟨c, hc, hop, fun harg => hrow ⟨c, hop, harg⟩⟩]
      rfl

/-! ## States that break an invariant (R160, U3) -/

/-- Settles O52: every transform command is one use of the guarded operation `transform`. -/
theorem brokenTablesRefuseTransforms : Obligations.BrokenTablesRefuseTransforms := by
  intro i s hi hs
  cases i with
  | subn | isubn | sub | isub | perm | iperm | enc | dec => exact transform_of_not_inv hs _
  | sets | rnds | rsts | rds | lds | setp | rndp | rstp | rdp | ldp => cases hi

end Sys2Proof.Proofs

/-! PROOFS. The reset and hazard statements (70_reset_and_hazards): what the reset move leaves, that no other step changes both
tables, and that every step from a state with the invariants is safe. -/

namespace Sys2Proof.Proofs

open Sys2Proof.Machine Sys2Proof.Laws

/-- Settles O2: the abandoned command takes no part in the reset step, and `RSTS` and `RSTP` restore the pairs of tables that the
reset restores. -/
theorem hardwareResetReplacesTables : Obligations.HardwareResetReplacesTables := by
  intro s c rest hm
  have hrsts : exec .rsts s = .next (respond .ok 0 (restoreS s)) := rfl
  have hrstp (u : State) : exec .rstp u = .next (respond .ok 0 (restoreP u)) := rfl
  exact ⟨_, _, _, step_of_reset hm, rfl, rfl, rfl, rfl, rfl, rfl, hrsts, hrstp _, rfl, rfl, rfl, rfl⟩

/-- Settles O47: a step that is no reset keeps `P`, where it ran a mutation of the substitution family, or else keeps `S`. -/
theorem onlyResetChangesBothTables : Obligations.OnlyResetChangesBothTables := by
  intro s t h hneS hneP
  rcases step_writes_own_tables h with ⟨hS, _⟩ | hreset | ⟨_, _, _, _, _, _, ⟨_, hP, _⟩ | ⟨_, hS, _⟩⟩
  · exact absurd hS hneS
  · exact hreset
  · exact absurd hP hneP
  · exact absurd hS hneS

/-- Settles O49, by the host's next move: none leaves the state as it is, reset installs tables with the invariants whatever the old
ones were, and a command word is answered by one lawful response. -/
theorem everyStepIsSafe : Obligations.EveryStepIsSafe := by
  intro s hs
  unfold SafeStep
  match hm : s.moves with
  | [] => exact ⟨s, step_of_idle hm, hs, rfl⟩
  | .reset c :: rest => exact ⟨_, step_of_reset hm, tablesInv_hardReset _, rfl, rfl⟩
  | .command cw :: rest =>
    obtain ⟨t, rw, hstep, hinv, hmoves, hresp, hrw⟩ := step_command_answers hs hm
    exact ⟨t, hstep, hinv, hmoves, rw, hresp, hrw⟩

end Sys2Proof.Proofs

/-! PROOFS. The corrected vector (90_conflicts C1): the two cascades over the default tables of reset. -/

namespace Sys2Proof.Proofs

open Sys2Proof.Machine Sys2Proof.Laws

/-- Over the default tables 0x00 substitutes to 0x11 (R91), whose bits 0 and 4 scatter to bits 1 and 3: the byte is 0x0A, where the
source's literal says 0x18 (C1). -/
theorem cascade_reset_zero : scatterByte State.reset.P (substituteByte State.reset.S 0x00) = 0x0A := by
  have hsub : substituteByte State.reset.S 0x00 = 0x11 := substituteByte_sDefault 0x00
  have hperm : scatterByte State.reset.P 0x11 = 0x0A := by decide
  rw [hsub, hperm]

/-- The source's literal 0x18 has bits 3 and 4, which scatter through `PI` to bits 4 and 6 and so give 0x50; that substitutes to 0x41
(C1). -/
theorem inverse_cascade_reset_literal : substituteByte State.reset.SI (scatterByte State.reset.PI 0x18) = 0x41 := by
  have hperm : scatterByte State.reset.PI 0x18 = 0x50 := by decide
  have hsub : substituteByte State.reset.SI 0x50 = 0x41 := substituteByte_sDefault 0x50
  rw [hperm, hsub]

/-- Settles O41: reset has the invariants, so both commands answer with their cascade; that `DEC` takes 0x0A back to 0x00 follows from
the answer of `ENC`, as the cascades undo each other. -/
theorem correctedConcreteVector : Obligations.CorrectedConcreteVector := by
  have hs := resetHoldsTableInvariant
  have hback := inverse_cascade_of_cascade hs 0x00
  rw [cascade_reset_zero] at hback
  refine ⟨?_, ?_, ?_⟩
  · rw [exec_enc hs, cascade_reset_zero]
    rfl
  · rw [exec_dec hs, hback]
    rfl
  · rw [exec_dec hs, inverse_cascade_reset_literal]
    rfl

end Sys2Proof.Proofs
